-- ==== Sys2Proof/Config.lean ====
section
/-! DEFINITION. Config: the fixed parameters of the block (00_scope.md R4) and the two open parameters of
what surrounds it (92_eei_decisions.md D9, D10). No value the block computes is left open (93_implementation_defined.md,
the summary of its Part 1), so there is no free value here. -/

namespace Sys2Proof.Config

/-- N_BITS (R4): payload bits encoded and decoded; the loop bound of both operations. -/
def nBits : Nat := 7

/-- PAIR_W (R4): encoded bits per payload bit. -/
def pairW : Nat := 2

/-- SYMBOL_W (R4): width of a symbol. -/
def symbolW : Nat := 16

/-- CLOCK_MASK (R4, R28): every odd bit 1, every even bit 0, every pair `10`. -/
def clockMask : BitVec 16 := 0xAAAA#16

/-- ENC_IN_SIG_W (R4): significant low bits of the encoder's input, the width of `enc_in`. -/
def encInSigW : Nat := 8

/-- ENC_IN_USED_W (R4): bits of the encoder's input that affect the result. -/
def encInUsedW : Nat := 7

/-- DEC_IN_SIG_W (R4): significant low bits of the decoder's input, the width of `dec_in`. -/
def decInSigW : Nat := 16

/-- DEC_OUT_W (R4): width of the decoder's result. -/
def decOutW : Nat := 7

/-- USED_PAIRS (R4): pairs of a symbol that carry payload, of its eight. -/
def usedPairs : Nat := 7

/-- SYMBOL_BYTE_ORDER (D9): which byte of a symbol the wrapper sends first. Left OPEN by the spec and a
parameter of the wrapper only: every definition that needs it takes it as an argument. -/
inductive SymbolByteOrder
  | hiFirst
  | loFirst
  deriving DecidableEq, Repr

/-- LINE_BIT_ORDER (D10): which bit of a byte reaches the line first. Left OPEN by the spec and a
parameter of the line only: every definition that needs it takes it as an argument. -/
inductive LineBitOrder
  | lsbFirst
  | msbFirst
  deriving DecidableEq, Repr

end Sys2Proof.Config
end

