-- ==== Sys2Proof/Word.lean ====
section
/-! DEFINITION. Word: the word types of the four ports (10_state.md R11, 30_encoding.md section 1), unsigned and
numbered from bit 0, the least significant (00_scope.md R5, R7). Every bit is 0 or 1 (92_eei_decisions.md D12). -/

namespace Sys2Proof

/-- One byte: the wrapper's unit of transmission, and the width of `enc_in`. -/
abbrev Byte := BitVec 8

/-- Format PAYLOAD-IN (R26): the word on `enc_in`; bits 6:0 are the payload, bit 7 is ignored. -/
abbrev PayloadIn := BitVec 8

/-- Formats SYMBOL-OUT (R29) and SYMBOL-IN (R30): the words on `enc_out` and `dec_in`. -/
abbrev Symbol := BitVec 16

/-- Format PAYLOAD-OUT (R31): the word on `dec_out`. -/
abbrev Payload := BitVec 7

/-- Two adjacent bits `2j+1` and `2j` of a symbol, the odd bit the higher (R6). -/
abbrev Pair := BitVec 2

/-- A raw word presented on one of the two input ports. Using a unit's port is what selects the operation:
there is no opcode (R33, D3). -/
inductive PortWord
  /-- a word on `enc_in`, for unit ENC -/
  | encIn (w : PayloadIn)
  /-- a word on `dec_in`, for unit DEC -/
  | decIn (w : Symbol)
  deriving DecidableEq, Repr

end Sys2Proof
end

