-- ==== Sys2Proof/Syntax.lean ====
section
/-! DEFINITION. Syntax: the two operations, in the source's call form (30_encoding.md R37): each takes one
host integer, of any size and sign (00_scope.md R7), which the boundary reduces to the port's width (R32). -/

namespace Sys2Proof

/-- The complete operation list (R33, R73): one constructor per row of the opcode table. -/
inductive Instr
  /-- `encode(input)`, unit ENC (40_encode.md R40) -/
  | encode (input : Int)
  /-- `decode(input)`, unit DEC (41_decode.md R48) -/
  | decode (input : Int)
  deriving DecidableEq, Repr

end Sys2Proof
end

