-- ==== Sys2Proof/WellFormed.lean ====
section
/-! DEFINITION. WellFormed: an operation is well formed when its operand is already the unsigned value of a word of
its input port, so that nothing is lost when it is written as that word (30_encoding.md R26, R30). An operation that
is not well formed still runs: the boundary reduces its operand (R32). Whether the word on `dec_in` is a well-formed
SYMBOL is no concern of this check: every word is a legal operand (R35). -/

namespace Sys2Proof

/-- The operand fits its port: 0 to 255 for `enc_in`, 0 to 65535 for `dec_in` (R11, R26, R30). -/
def Instr.wf : Instr → Bool
  | .encode n => decide (0 ≤ n) && decide (n < 256)
  | .decode n => decide (0 ≤ n) && decide (n < 65536)

/-- `Instr.wf` as a proposition. -/
abbrev Instr.WellFormed (i : Instr) : Prop := i.wf = true

end Sys2Proof
end

