-- ==== Sys2Proof/Decode.lean ====
section
/-! DEFINITION. Decode: from the word on an input port to the operation it stands for, and back. There is no opcode
and no instruction word (30_encoding.md R33): the port selects the operation, the word is its operand, and every word
of either port is legal (R35). A port carries one whole word, so no byte order enters (20_memory.md R19). -/

namespace Sys2Proof

/-- Why a bit string is no input word of the block. -/
inductive DecodeError
  /-- No input format has this length: PAYLOAD-IN has 8 bits, SYMBOL-IN has 16, and there is no other (R38 and
  section 1 of 30_encoding.md). Raised by `portWordOfBits`; safe, since such a string is on no port. -/
  | noSuchFormat (nbits : Nat)
  deriving DecidableEq, Repr

/-- The operation that presenting this word performs (R33). -/
def decodePortWord : PortWord → Instr
  | .encIn w => .encode (w.toNat : Int)
  | .decIn w => .decode (w.toNat : Int)

/-- The port word that a string of `nbits` bits is: each input format has one fixed length, and the two lengths
differ (R38). Bit 0 of `w` is bit 0 of the word (R5). -/
def portWordOfBits (nbits w : Nat) : Except DecodeError PortWord :=
  if nbits = Config.encInSigW then .ok (.encIn (BitVec.ofNat 8 w))
  else if nbits = Config.decInSigW then .ok (.decIn (BitVec.ofNat 16 w))
  else .error (.noSuchFormat nbits)

/-- Decode a string of `nbits` bits. Total: it answers for every length and every value. -/
def decodeBits (nbits w : Nat) : Except DecodeError Instr :=
  (portWordOfBits nbits w).map decodePortWord

/-- What `decodeBits` reads from a row's word as spec/opcode_table.json numbers its bits. -/
def decodeTableWord (nbits w : Nat) : Option Instr :=
  match decodeBits nbits w with
  | .ok i => some i
  | .error _ => none

/-- The word the operation puts on its unit's input port (R37), its operand reduced to the port's width, a negative
host integer taken as its two's-complement pattern (R32, R7, D4, D5). -/
def encode : Instr → PortWord
  | .encode n => .encIn (BitVec.ofInt 8 n)
  | .decode n => .decIn (BitVec.ofInt 16 n)

/-- A port word's length, the `width` of its row in spec/opcode_table.json. -/
def PortWord.nbits : PortWord → Nat
  | .encIn _ => Config.encInSigW
  | .decIn _ => Config.decInSigW

/-- A port word's bits as one number. -/
def PortWord.bits : PortWord → Nat
  | .encIn w => w.toNat
  | .decIn w => w.toNat

end Sys2Proof
end

