-- ==== Sys2Proof/Machine/State.lean ====
section
/-! DEFINITION. State. The block itself holds no state (10_state.md R9, R10, R15): no register, no program counter, no
flag, no memory, and `acc` and `res` live only inside one evaluation (R14). What a step relation needs is its one
agent, the environment (00_scope.md section 7, answer 1): the values it now drives on the two input ports, what it
does next, and what it has read. The output ports are no fields: they are functions of the inputs (R12, R13;
`State.encOut`, `State.decOut` in Ops.lean). -/

namespace Sys2Proof.Machine

/-- No step of the block faults (60_exceptions.md R67, R75): the table of causes is empty, and so is this type. -/
inductive Fault
  deriving DecidableEq, Repr

/-- Why a step is refused. The block refuses nothing (R75), so the one reason is the host's. -/
inductive Refusal
  /-- Raised by no arm: kept because the host's interface names it. Safe. -/
  | notModelled (mnemonic : String)
  deriving DecidableEq, Repr

/-- What the environment has read at an output port. -/
inductive Reading
  /-- a word read at `enc_out` (format SYMBOL-OUT, R29) -/
  | symbol (w : Symbol)
  /-- a word read at `dec_out` (format PAYLOAD-OUT, R31) -/
  | payload (p : Payload)
  deriving DecidableEq, Repr

/-- One act of the environment, which may put any value on an input port and read any output port at any time
(00_scope.md section 7, answers 1 and 8). -/
inductive EnvEvent
  /-- use a unit on a raw word: present it and read the output (R37) -/
  | use (w : PortWord)
  /-- use a unit in the source's call syntax, on a host integer (R37, R32) -/
  | call (i : Instr)
  /-- put a word on `enc_in` without reading -/
  | driveEnc (v : PayloadIn)
  /-- put a word on `dec_in` without reading -/
  | driveDec (w : Symbol)
  /-- change both inputs at one instant (R69, 95_test_vectors.md Program 5) -/
  | driveBoth (v : PayloadIn) (w : Symbol)
  /-- change bits 15:8 of `dec_in` only (R21, R80) -/
  | driveDecHigh (b : Byte)
  /-- change bits 7:0 of `dec_in` only (R21, R80) -/
  | driveDecLow (b : Byte)
  /-- read `enc_out` -/
  | sampleEnc
  /-- read `dec_out` -/
  | sampleDec
  deriving DecidableEq, Repr

/-- The ports' inputs and the environment. All of it belongs to the environment: the block adds no cell (R9). -/
structure State where
  /-- the word on `enc_in` (R11) -/
  encIn : PayloadIn
  /-- the word on `dec_in` (R11) -/
  decIn : Symbol
  /-- what the environment will do, the next act first (the model's own field, assumption 1) -/
  pending : List EnvEvent
  /-- what the environment has read, the latest first (the model's own field, assumption 1) -/
  readings : List Reading
  deriving DecidableEq, Repr

/-- There is no reset and nothing to reset (70_reset_and_hazards.md R76). The two inputs are whatever the wrapper
drives (R77); DESIGN CHOICE (assumption 2): zero on both. Nothing is pending and nothing has been read. -/
def State.reset : State :=
  { encIn := 0x00#8, decIn := 0x0000#16, pending := [], readings := [] }

end Sys2Proof.Machine
end

