-- ==== Sys2Proof/Machine/Ops.lean ====
section
/-! DEFINITION. Ops: the two functions of the block as their rules' loops (40_encode.md R40, 41_decode.md R48) and as
wiring (R41, R49), the pairs of a symbol, and the acts on the ports. There is no memory (20_memory.md R17), and no
operation that takes an exception or returns from one: there are none to take (60_exceptions.md R67, R70, R71). -/

namespace Sys2Proof.Machine

/-- Append one pre-mask pair: shift left by 2, then OR in `11` for a set bit and `00` otherwise (R40, R27). -/
def appendPair (acc : BitVec 16) (b : Bool) : BitVec 16 :=
  (acc <<< Config.pairW) ||| (if b then 0x0003#16 else 0x0000#16)

/-- The accumulator of `encode` after its seven iterations, low bit first, from zero (R40, R14). It is `spread` of
42_codec_laws_and_framing.md R61. -/
def spread (v : PayloadIn) : BitVec 16 :=
  (List.range Config.nBits).foldl (fun acc i => appendPair acc ((v &&& 0xFF#8).getLsbD i)) 0x0000#16

/-- `encode` (R40): the accumulator XOR the clock mask, all 16 bits. -/
def manchesterEncode (v : PayloadIn) : Symbol :=
  spread v ^^^ Config.clockMask

/-- Append one sampled bit: shift left by 1, then OR (R48). -/
def appendBit (res : BitVec 7) (t : Bool) : BitVec 7 :=
  (res <<< 1) ||| (if t then 1#7 else 0#7)

/-- `decode` (R48): the even bits of pairs 0 to 6, least-significant pair first, appended from zero (R14). -/
def manchesterDecode (s : Symbol) : Payload :=
  (List.range Config.nBits).foldl (fun res i => appendBit res ((s &&& 0xFFFF#16).getLsbD (2 * i))) 0#7

/-- `encode` bit by bit, as one concatenation, most significant bit first (R41): `1, 0`, then each payload bit's
complement and the bit, from payload bit 0 to payload bit 6. -/
def encodeWired (v : PayloadIn) : Symbol :=
  let p := v.getLsbD
  BitVec.ofBoolListBE
    [true, false, !p 0, p 0, !p 1, p 1, !p 2, p 2, !p 3, p 3, !p 4, p 4, !p 5, p 5, !p 6, p 6]

/-- `decode` bit by bit, as one concatenation, most significant bit first (R49). -/
def decodeWired (s : Symbol) : Payload :=
  BitVec.ofBoolListBE
    [s.getLsbD 0, s.getLsbD 2, s.getLsbD 4, s.getLsbD 6, s.getLsbD 8, s.getLsbD 10, s.getLsbD 12]

/-- `encode`'s accumulator at any width `w` (R45: every width of 14 bits or more gives the same result). -/
def spreadAt (w : Nat) (v : PayloadIn) : BitVec w :=
  (List.range Config.nBits).foldl
    (fun acc i => (acc <<< 2) ||| (if v.getLsbD i then BitVec.ofNat w 3 else BitVec.ofNat w 0)) (BitVec.ofNat w 0)

/-- `encode`'s accumulator on natural numbers, without truncation: `acc * 4 + 3` or `acc * 4` (R45). -/
def spreadNat (v : PayloadIn) : Nat :=
  (List.range Config.nBits).foldl (fun acc i => acc * 4 + (if v.getLsbD i then 3 else 0)) 0

/-- `decode`'s result at any width `w` (R54: every width of 7 bits or more gives the same result). -/
def gatherAt (w : Nat) (s : Symbol) : BitVec w :=
  (List.range Config.nBits).foldl
    (fun res i => (res <<< 1) ||| (if s.getLsbD (2 * i) then BitVec.ofNat w 1 else BitVec.ofNat w 0)) (BitVec.ofNat w 0)

/-- `decode`'s result on natural numbers: `res * 2 + t` (R54). -/
def gatherNat (s : Symbol) : Nat :=
  (List.range Config.nBits).foldl (fun res i => res * 2 + (if s.getLsbD (2 * i) then 1 else 0)) 0

/-- Pair `j` of a symbol, the field `w[2j+1:2j]` (R6). -/
def pairOf (w : Symbol) (j : Nat) : Pair := w.extractLsb' (2 * j) 2

/-- A well-formed symbol: pair 7 is `10` and each of pairs 0 to 6 is `10` or `01` (R34). The block never tests it
(R52, D15): it is a notion of the claims. -/
def wellFormedSymbol (w : Symbol) : Bool :=
  pairOf w 7 == 0b10#2 &&
    (List.range Config.usedPairs).all (fun j => pairOf w j == 0b10#2 || pairOf w j == 0b01#2)

namespace State

/-- `enc_out`, at every instant the encoding of `enc_in` (R12). -/
def encOut (s : State) : Symbol := manchesterEncode s.encIn

/-- `dec_out`, at every instant the decoding of `dec_in` (R13). -/
def decOut (s : State) : Payload := manchesterDecode s.decIn

/-- Put a word on `enc_in`. -/
def driveEnc (s : State) (v : PayloadIn) : State := { s with encIn := v }

/-- Put a word on `dec_in`. -/
def driveDec (s : State) (w : Symbol) : State := { s with decIn := w }

/-- Change the high byte of `dec_in` and leave the low one (R21). -/
def driveDecHigh (s : State) (b : Byte) : State := s.driveDec (b ++ s.decIn.extractLsb' 0 8)

/-- Change the low byte of `dec_in` and leave the high one (R21). -/
def driveDecLow (s : State) (b : Byte) : State := s.driveDec (s.decIn.extractLsb' 8 8 ++ b)

/-- Read `enc_out`; reading has no side effect on the block (R21). -/
def sampleEnc (s : State) : State := { s with readings := .symbol s.encOut :: s.readings }

/-- Read `dec_out`; reading has no side effect on the block (R21). -/
def sampleDec (s : State) : State := { s with readings := .payload s.decOut :: s.readings }

end State

end Sys2Proof.Machine
end

