-- ==== Sys2Proof/Machine/Operands.lean ====
section
/-! DEFINITION. Operands: a host integer becomes the word of a port, and a port's word a host integer (30_encoding.md
R32, 00_scope.md R7). These are the only width changes in the block (20_memory.md R25). -/

namespace Sys2Proof.Machine

/-- The encoder's operand (R32 a): the low 8 bits, a negative integer by two's complement (D4). -/
def encOperand (n : Int) : PayloadIn := BitVec.ofInt 8 n

/-- The decoder's operand (R32 b): the low 16 bits, a negative integer by two's complement (D5). -/
def decOperand (n : Int) : Symbol := BitVec.ofInt 16 n

/-- A reading as a host integer, by zero-extension (R32 c and d, D6). -/
def Reading.toHost : Reading → Int
  | .symbol w => (w.toNat : Int)
  | .payload p => (p.toNat : Int)

end Sys2Proof.Machine
end

