-- ==== Sys2Proof/Machine/Flags.lean ====
section
/-! DEFINITION. Flags: there are none. The block has no flags, no condition codes and no predicates; nothing sets one
and nothing reads one (10_state.md R15), `encode` and `decode` write none (R40, R48), and no output tells whether a
symbol was well formed (R52, 92_eei_decisions.md D15). This file stands so that the absence is said in its place. -/
end

