-- ==== Sys2Proof/Machine/Dec.lean ====
section
/-! DEFINITION. Dec: unit DEC, the operation `decode` (41_decode.md R48). -/

namespace Sys2Proof.Machine

/-- `decode(input)` (R37, R48): put the reduced operand on `dec_in` and read `dec_out`. No validity check: a malformed
word has the value the rule gives (R52). It raises nothing, sets no flag and touches nothing of ENC (R51, R22). -/
def execDecode (input : Int) (s : State) : Host.Outcome State Fault Refusal :=
  .next (s.driveDec (decOperand input)).sampleDec

end Sys2Proof.Machine
end

