-- ==== Sys2Proof/Machine/Enc.lean ====
section
/-! DEFINITION. Enc: unit ENC, the operation `encode` (40_encode.md R40). -/

namespace Sys2Proof.Machine

/-- `encode(input)` (R37, R40): put the reduced operand on `enc_in` and read `enc_out`. It raises nothing, sets no flag
and touches nothing of DEC (R44, R22). -/
def execEncode (input : Int) (s : State) : Host.Outcome State Fault Refusal :=
  .next (s.driveEnc (encOperand input)).sampleEnc

end Sys2Proof.Machine
end

