-- ==== Sys2Proof/Machine/Environment.lean ====
section
/-! DEFINITION. Environment: what each act of the environment does (00_scope.md section 7, answers 1 and 8). -/

namespace Sys2Proof.Machine

/-- One act. A use of a unit runs the operation its word decodes to, or the operation called (R37); driving an input
changes that input alone; reading an output changes no port (R21). -/
def perform (e : EnvEvent) (s : State) : Host.Outcome State Fault Refusal :=
  match e with
  | .use w => exec (decodePortWord w) s
  | .call i => exec i s
  | .driveEnc v => .next (s.driveEnc v)
  | .driveDec w => .next (s.driveDec w)
  | .driveBoth v w => .next ((s.driveEnc v).driveDec w)
  | .driveDecHigh b => .next (s.driveDecHigh b)
  | .driveDecLow b => .next (s.driveDecLow b)
  | .sampleEnc => .next s.sampleEnc
  | .sampleDec => .next s.sampleDec

/-- Place a row's word as the environment's next act: present it on the port whose format has that length. A length
that no input format has (`DecodeError.noSuchFormat`) is on no port, so nothing is placed. -/
def placeWord (s : State) (nbits w : Nat) : State :=
  match portWordOfBits nbits w with
  | .ok p => { s with pending := .use p :: s.pending }
  | .error _ => s

end Sys2Proof.Machine
end

