-- ==== Sys2Proof/Machine/Step.lean ====
section
/-! DEFINITION. Step: the one agent, the environment, does its next act (00_scope.md section 7, answer 1). -/

namespace Sys2Proof.Machine

/-- The next act of the environment; with none pending the inputs stay as they are and nothing changes (R77). -/
def step (s : State) : Host.Outcome State Fault Refusal :=
  match s.pending with
  | [] => .next s
  | e :: rest => perform e { s with pending := rest }

/-- `s` with the instruction of that word as the environment's next act: the machine fetches nothing (R10, R24), so a
program is what the environment will do (assumption 4). -/
def State.withFetchWord (s : State) (nbits w : Nat) : State := placeWord s nbits w

end Sys2Proof.Machine
end

