-- ==== Sys2Proof/Machine/Wrapper.lean ====
section
/-! DEFINITION. Wrapper: the boundary around the block (42_codec_laws_and_framing.md section 3), as far as the spec
gives it: the split of a symbol into two bytes, its reassembly, and the order of its bits on a line. None of it is part
of the block (00_scope.md R3); both orders are open parameters (92_eei_decisions.md D9, D10) and arguments here. -/

namespace Sys2Proof.Machine.Wrapper

open Sys2Proof.Config

/-- The two bytes of a symbol in the order they are sent (R64). -/
def split : SymbolByteOrder → Symbol → Byte × Byte
  | .hiFirst, s => (s.extractLsb' 8 8, s.extractLsb' 0 8)
  | .loFirst, s => (s.extractLsb' 0 8, s.extractLsb' 8 8)

/-- The word formed from two received bytes, in the order they came (R65). -/
def reassemble : SymbolByteOrder → Byte × Byte → Symbol
  | .hiFirst, (first, second) => first ++ second
  | .loFirst, (first, second) => second ++ first

/-- The environment's acts that put two received bytes on `dec_in` one at a time, as they come (R65, R80). -/
def receiveActs : SymbolByteOrder → Byte × Byte → List EnvEvent
  | .hiFirst, (first, second) => [.driveDecHigh first, .driveDecLow second]
  | .loFirst, (first, second) => [.driveDecLow first, .driveDecHigh second]

/-- The bits of a byte in the order they reach the line (D10). -/
def byteOnLine : LineBitOrder → Byte → List Bool
  | .lsbFirst, b => (List.range 8).map (fun i => b.getLsbD i)
  | .msbFirst, b => (List.range 8).map (fun i => b.getLsbD (7 - i))

/-- The sixteen bits of a symbol in the order they reach the line, under both orders (R39, D9, D10). -/
def symbolOnLine (o : SymbolByteOrder) (l : LineBitOrder) (s : Symbol) : List Bool :=
  byteOnLine l (split o s).1 ++ byteOnLine l (split o s).2

/-- The byte that eight bits taken off the line spell: the first is bit 0, or bit 7 (D10). Any other number of bits is
no byte. -/
def byteOffLine : LineBitOrder → List Bool → Option Byte
  | .lsbFirst, [b0, b1, b2, b3, b4, b5, b6, b7] => some (BitVec.ofBoolListBE [b7, b6, b5, b4, b3, b2, b1, b0])
  | .msbFirst, [b7, b6, b5, b4, b3, b2, b1, b0] => some (BitVec.ofBoolListBE [b7, b6, b5, b4, b3, b2, b1, b0])
  | _, _ => none

/-- The symbol that sixteen bits taken off the line spell (R39, D9, D10). Any other number of bits is no symbol. -/
def symbolOffLine (o : SymbolByteOrder) (l : LineBitOrder) (bits : List Bool) : Option Symbol :=
  match byteOffLine l (bits.take 8), byteOffLine l (bits.drop 8) with
  | some first, some second => some (reassemble o (first, second))
  | _, _ => none

end Sys2Proof.Machine.Wrapper
end

