-- ==== Sys2Proof/Safety.lean ====
section
/-! DEFINITION. Safety: the terms the claims use: a run that completes, the invariant on what has been read, and what
belongs to each unit. -/

namespace Sys2Proof.Machine

/-- Whether an act drives `enc_in`. -/
def EnvEvent.drivesEnc : EnvEvent → Bool
  | .use (.encIn _) | .call (.encode _) | .driveEnc _ | .driveBoth _ _ => true
  | .use (.decIn _) | .call (.decode _) | .driveDec _ | .driveDecHigh _ | .driveDecLow _ | .sampleEnc | .sampleDec => false

/-- Whether an act drives any bit of `dec_in`. -/
def EnvEvent.drivesDec : EnvEvent → Bool
  | .use (.decIn _) | .call (.decode _) | .driveDec _ | .driveBoth _ _ | .driveDecHigh _ | .driveDecLow _ => true
  | .use (.encIn _) | .call (.encode _) | .driveEnc _ | .sampleEnc | .sampleDec => false

/-- An act's part that concerns ENC's ports, if any. -/
def EnvEvent.encPart : EnvEvent → Option EnvEvent
  | .use (.encIn v) => some (.use (.encIn v))
  | .call (.encode n) => some (.call (.encode n))
  | .driveEnc v => some (.driveEnc v)
  | .driveBoth v _ => some (.driveEnc v)
  | .sampleEnc => some .sampleEnc
  | .use (.decIn _) | .call (.decode _) | .driveDec _ | .driveDecHigh _ | .driveDecLow _ | .sampleDec => none

/-- An act's part that concerns DEC's ports, if any. -/
def EnvEvent.decPart : EnvEvent → Option EnvEvent
  | .use (.decIn w) => some (.use (.decIn w))
  | .call (.decode n) => some (.call (.decode n))
  | .driveDec w => some (.driveDec w)
  | .driveBoth _ w => some (.driveDec w)
  | .driveDecHigh b => some (.driveDecHigh b)
  | .driveDecLow b => some (.driveDecLow b)
  | .sampleDec => some .sampleDec
  | .use (.encIn _) | .call (.encode _) | .driveEnc _ | .sampleEnc => none

/-- Whether a reading was taken at `enc_out`. -/
def Reading.isSymbol : Reading → Bool
  | .symbol _ => true
  | .payload _ => false

/-- Whether a reading was taken at `dec_out`. -/
def Reading.isPayload : Reading → Bool
  | .symbol _ => false
  | .payload _ => true

/-- The readings taken at `enc_out`, the latest first. -/
def State.symbolsRead (s : State) : List Reading := s.readings.filter Reading.isSymbol

/-- The readings taken at `dec_out`, the latest first. -/
def State.payloadsRead (s : State) : List Reading := s.readings.filter Reading.isPayload

/-- What a use of the block gives the user (R37): the operation's function of its reduced operand. -/
def resultOf : Instr → Reading
  | .encode n => .symbol (manchesterEncode (encOperand n))
  | .decode n => .payload (manchesterDecode (decOperand n))

/-- A reading that unit ENC or DEC can give: a symbol is well formed (R34); any payload is in 0 to 127 by its type. -/
def Reading.genuine : Reading → Bool
  | .symbol w => wellFormedSymbol w
  | .payload _ => true

/-- The invariant: every word ever read at `enc_out` is a well-formed symbol (R34, R46). -/
def ReadingsGenuine (s : State) : Prop := ∀ r ∈ s.readings, r.genuine = true

/-- A safe run: `k` steps complete, with no fault and no refusal (R75). -/
def SafeRun (k : Nat) (s : State) : Prop := ∃ t, Host.Core.run Sys2Proof.core k s = .next t

end Sys2Proof.Machine
end

