-- ==== Sys2Proof/Certificates/Slice0/Obligations.lean ====
section
/-! DEFINITION. Obligations: the statements for the provers. Each docstring names the rule it formalises; a clause that
rests on a choice of the model's, not on a rule, names its log entry (notes/assumptions/). -/

open Sys2Proof Sys2Proof.Machine

/-! ## Encoding of the operations -/

/-- Words written out from the `encoding` strings of the opcode table (`xppppppp`, `uuqdqdqdqdqdqdqd`) decode to the
operations they stand for, bit 7 and the ignored bits included; a length of no input format decodes to nothing.
The MODEL'S CHOICE (log entry 12, DESIGN CHOICE): the length, 8 or 16, tells the two rows apart, and length 12 answers
none. The spec itself says that no decoder tells one operation from the other (R33). -/
def Obligations.WrittenWordsDecodeToTheirOperations : Prop :=
  decodeTableWord 8 0b01000001 = some (.encode 0x41) ∧
  decodeTableWord 8 0b11000001 = some (.encode 0xC1) ∧
  decodeTableWord 16 0b1001101010101001 = some (.decode 0x9AA9) ∧
  decodeTableWord 16 0b1110101010101010 = some (.decode 0xEAAA) ∧
  decodeTableWord 12 0 = none

/-- Decoding an encoded well-formed operation gives it back, as a port word and as the table numbers its bits.
The clause on `decodeTableWord` rests on the MODEL'S CHOICE that the length selects the row (log entry 12, DESIGN
CHOICE); the clause on the port word does not. -/
def Obligations.DecodeInvertsEncode : Prop :=
  ∀ i : Instr, i.WellFormed →
    decodePortWord (encode i) = i ∧ decodeTableWord (encode i).nbits (encode i).bits = some i

/-- There is no illegal, reserved or trapping word on either input (R35): every port word is a well-formed operation,
no two words are the same operation, and every one of them completes. -/
def Obligations.EveryPortWordIsAnOperation : Prop :=
  ∀ w : PortWord, (decodePortWord w).WellFormed ∧ encode (decodePortWord w) = w ∧
    ∀ s : State, ∃ t, exec (decodePortWord w) s = .next t

/-- A step whose next act is a use of a unit on a raw word is that word's operation, and one whose next act is a call is
the operation called, at the state with the act taken off what is pending; with nothing pending a step changes nothing.
The MODEL'S CHOICES: that a step takes the next of the environment's pending acts (log entry 4, DESIGN CHOICE), and that
with none pending it changes nothing (log entry 5, DESIGN CHOICE). -/
def Obligations.StepRunsTheDecodedOperation : Prop :=
  (∀ (s : State) (w : PortWord) (rest : List EnvEvent), s.pending = .use w :: rest →
    (decodePortWord w).WellFormed ∧ step s = exec (decodePortWord w) { s with pending := rest }) ∧
  (∀ (s : State) (i : Instr) (rest : List EnvEvent), s.pending = .call i :: rest →
    step s = exec i { s with pending := rest }) ∧
  ∀ s : State, s.pending = [] → step s = .next s

/-- A row's word placed as the next act is run by the very next step. The MODEL'S CHOICES: how a word comes to be the
next act (log entry 4, DESIGN CHOICE), and that its length selects the row (log entry 12, DESIGN CHOICE). -/
def Obligations.PlacedTableWordIsTheNextOperation : Prop :=
  ∀ (nbits w : Nat) (i : Instr) (s : State), decodeTableWord nbits w = some i →
    step (s.withFetchWord nbits w) = exec i s

/-! ## Unit ENC -/

/-- R40: `encode` completes for every operand in every state. It masks the operand to 8 bits, appends one pre-mask pair
per payload bit for bits 0 to 6 in that order to an accumulator that starts at zero, and XORs the clock mask; it reads
and writes nothing else. -/
def Obligations.EncodeRunsItsLoopAndTouchesNothingElse : Prop :=
  ∀ (n : Int) (s : State), ∃ (t : State) (acc : Nat → BitVec 16),
    exec (.encode n) s = .next t ∧
    t.encIn = BitVec.ofInt 8 n ∧
    acc 0 = 0x0000#16 ∧
    (∀ i < 7, acc (i + 1) = (acc i <<< 2) ||| (if t.encIn.getLsbD i then 0x0003#16 else 0x0000#16)) ∧
    t.encOut = acc 7 ^^^ 0xAAAA#16 ∧
    t.readings = .symbol t.encOut :: s.readings ∧
    t.decIn = s.decIn ∧ t.decOut = s.decOut ∧ t.pending = s.pending

/-- R41: the symbol `encode` gives, bit by bit. -/
def Obligations.EncodeSymbolBitByBit : Prop :=
  ∀ (n : Int) (s : State), ∃ (t : State) (sym : Symbol),
    exec (.encode n) s = .next t ∧ t.readings = .symbol sym :: s.readings ∧
    sym.getLsbD 15 = true ∧ sym.getLsbD 14 = false ∧
    ∀ k < 7, sym.getLsbD (13 - 2 * k) = !((BitVec.ofInt 8 n).getLsbD k) ∧
      sym.getLsbD (12 - 2 * k) = (BitVec.ofInt 8 n).getLsbD k

/-- R27 and R29: before the mask a payload bit is the pair `11` or `00`, after it `01` or `10`; pair `j` carries payload
bit `6 - j`, and pair 7 is `10`. -/
def Obligations.EachPairCarriesOnePayloadBit : Prop :=
  ∀ s : State, pairOf s.encOut 7 = 0b10#2 ∧
    ∀ j < 7, pairOf (s.encOut ^^^ Config.clockMask) j = (if s.encIn.getLsbD (6 - j) then 0b11#2 else 0b00#2) ∧
      pairOf s.encOut j = (if s.encIn.getLsbD (6 - j) then 0b01#2 else 0b10#2)

/-- R28: the clock mask is `0xAAAA`, every pair of it is `10`; it is XORed with the entire accumulator; XOR with it
complements the odd bits and leaves the even bits. -/
def Obligations.ClockMaskComplementsOddBits : Prop :=
  Config.clockMask = 0xAAAA#16 ∧ (∀ j < 8, pairOf Config.clockMask j = 0b10#2) ∧
  (∀ s : State, s.encOut = spread s.encIn ^^^ Config.clockMask) ∧
  ∀ (w : Symbol), ∀ i < 16,
    (w ^^^ Config.clockMask).getLsbD i = (if i % 2 = 1 then !(w.getLsbD i) else w.getLsbD i)

/-- From R42: the result depends only on bits 6:0 of the input, for every word and, as R42 says, for every non-negative
host integer. For a negative host integer the statement rests on the MODEL'S CHOICE of its two's-complement pattern (log
entry 6, DEDUCED from R7 and D4), not on R42. -/
def Obligations.EncodeDependsOnSevenBits : Prop :=
  (∀ (s : State) (v : PayloadIn), (s.driveEnc v).encOut = (s.driveEnc (v &&& 0x7F#8)).encOut) ∧
  ∀ (n : Int) (s : State), ∃ t u, exec (.encode n) s = .next t ∧ exec (.encode (n % 128)) s = .next u ∧
    t.readings = u.readings ∧ t.encOut = u.encOut

/-- R43: pair 7 of every result is `10`, bits 15:14 of the accumulator are `00`, and every result is at least 0x8000 and
less than 0xC000. -/
def Obligations.EveryResultLiesBelowC000WithTopPairFixed : Prop :=
  ∀ s : State, s.encOut.getLsbD 15 = true ∧ s.encOut.getLsbD 14 = false ∧
    pairOf (s.encOut ^^^ Config.clockMask) 7 = 0b00#2 ∧ 0x8000 ≤ s.encOut.toNat ∧ s.encOut.toNat < 0xC000

/-- R44, R51: each operation answers exactly one next state for every operand, and what it reads is the operation's own
kind of word. -/
def Obligations.EveryOperationCompletes : Prop :=
  (∀ (n : Int) (s : State), ∃ t sym, exec (.encode n) s = .next t ∧ t.readings = .symbol sym :: s.readings) ∧
  ∀ (n : Int) (s : State), ∃ t p, exec (.decode n) s = .next t ∧ t.readings = .payload p :: s.readings ∧
    p.toNat ≤ 127

/-- From R45: no shift of `encode` loses a 1, so an accumulator of any width of 14 bits or more, and natural numbers
without truncation, give the same symbol. -/
def Obligations.EncodeAccumulatorWidthDoesNotMatter : Prop :=
  ∀ (s : State), spreadNat s.encIn < 2 ^ 14 ∧ s.encOut.toNat = spreadNat s.encIn ^^^ 0xAAAA ∧
    ∀ w : Nat, 14 ≤ w → (spreadAt w s.encIn).toNat = spreadNat s.encIn ∧
      s.encOut = (spreadAt w s.encIn).setWidth 16 ^^^ 0xAAAA#16

/-- R46: `encode` is injective on payloads, its image is the well-formed symbols, its results run from 0x9555 (payload
0x7F) to 0xAAAA (payload 0x00), it is strictly decreasing in the bit-reversed payload, and on all 256 inputs a symbol is
given by exactly `v` and `v ^ 0x80`. -/
def Obligations.EncodeIsInjectiveAndDecreasingInReversedPayload : Prop :=
  (∀ p q : Payload, manchesterEncode (p.setWidth 8) = manchesterEncode (q.setWidth 8) → p = q) ∧
  (∀ w : Symbol, wellFormedSymbol w = true ↔ ∃ p : Payload, manchesterEncode (p.setWidth 8) = w) ∧
  (∀ v : PayloadIn, 0x9555 ≤ (manchesterEncode v).toNat ∧ (manchesterEncode v).toNat ≤ 0xAAAA) ∧
  manchesterEncode 0x7F#8 = 0x9555#16 ∧ manchesterEncode 0x00#8 = 0xAAAA#16 ∧
  (∀ p q : Payload, p.reverse.toNat < q.reverse.toNat →
    (manchesterEncode (q.setWidth 8)).toNat < (manchesterEncode (p.setWidth 8)).toNat) ∧
  manchesterEncode 0x01#8 = 0x9AAA#16 ∧ manchesterEncode 0x02#8 = 0xA6AA#16 ∧
  ∀ v u : PayloadIn, manchesterEncode v = manchesterEncode u ↔ u = v ∨ u = v ^^^ 0x80#8

/-- R47: every pair of a result holds one 1 and one 0, so eight bits are 1; complementing the payload complements pairs
0 to 6; setting one payload bit flips exactly its two symbol bits. -/
def Obligations.ShapeOfEverySymbol : Prop :=
  ∀ s : State,
    (∀ j < 8, pairOf s.encOut j = 0b10#2 ∨ pairOf s.encOut j = 0b01#2) ∧
    ((List.range 16).filter (fun i => s.encOut.getLsbD i)).length = 8 ∧
    (s.encOut ^^^ (s.encOut >>> 1)) &&& 0x5555#16 = 0x5555#16 ∧
    s.encOut ^^^ (s.driveEnc (s.encIn ^^^ 0x7F#8)).encOut = 0x3FFF#16 ∧
    ∀ k < 7, s.encOut ^^^ (s.driveEnc (s.encIn ^^^ (1#8 <<< k))).encOut = 0x3#16 <<< (12 - 2 * k)

/-- R34: a word is a well-formed symbol exactly when pair 7 is `10` and each of pairs 0 to 6 is `10` or `01`, which is
exactly when some payload encodes to it; distinct payloads give distinct ones, 128 in all, from 0x9555 to 0xAAAA. -/
def Obligations.WellFormedSymbolsAreTheEncodings : Prop :=
  (∀ w : Symbol, wellFormedSymbol w = true ↔
    pairOf w 7 = 0b10#2 ∧ ∀ j < 7, pairOf w j = 0b10#2 ∨ pairOf w j = 0b01#2) ∧
  (∀ w : Symbol, wellFormedSymbol w = true → 0x9555 ≤ w.toNat ∧ w.toNat ≤ 0xAAAA) ∧
  wellFormedSymbol 0x9555#16 = true ∧ wellFormedSymbol 0xAAAA#16 = true ∧
  ∃ f : Fin 128 → Symbol, (∀ a b, f a = f b → a = b) ∧
    (∀ a, f a = manchesterEncode (BitVec.ofNat 8 a.val)) ∧ ∀ w, wellFormedSymbol w = true ↔ ∃ a, f a = w

/-! ## Unit DEC -/

/-- R48: `decode` completes for every operand in every state. It masks the operand to 16 bits, samples the even bit of
each of pairs 0 to 6 in that order, and appends each to a result that starts at zero; it reads and writes nothing
else. -/
def Obligations.DecodeRunsItsLoopAndTouchesNothingElse : Prop :=
  ∀ (n : Int) (s : State), ∃ (t : State) (res : Nat → BitVec 7),
    exec (.decode n) s = .next t ∧
    t.decIn = BitVec.ofInt 16 n ∧
    res 0 = 0#7 ∧
    (∀ i < 7, res (i + 1) = (res i <<< 1) ||| (if t.decIn.getLsbD (2 * i) then 1#7 else 0#7)) ∧
    t.decOut = res 7 ∧
    t.readings = .payload t.decOut :: s.readings ∧
    t.encIn = s.encIn ∧ t.encOut = s.encOut ∧ t.pending = s.pending

/-- R49, R31: output bit `k` of `decode` is input bit `12 - 2k`; pair 0 gives the most significant bit (R56). -/
def Obligations.DecodePayloadBitByBit : Prop :=
  ∀ (n : Int) (s : State), ∃ (t : State) (p : Payload),
    exec (.decode n) s = .next t ∧ t.readings = .payload p :: s.readings ∧
    ∀ k < 7, p.getLsbD k = (BitVec.ofInt 16 n).getLsbD (12 - 2 * k)

/-- R50: nine of the sixteen input bits are ignored. -/
def Obligations.DecodeReadsOnlySevenBits : Prop :=
  ∀ (s : State) (w : Symbol), (s.driveDec w).decOut = (s.driveDec (w &&& 0x1555#16)).decOut ∧
    ∀ n ∈ [1, 3, 5, 7, 9, 11, 13, 14, 15], (s.driveDec (w ^^^ (1#16 <<< n))).decOut = (s.driveDec w).decOut

/-- R36: changing any ignored bit of either input changes no output. -/
def Obligations.IgnoredBitsChangeNoOutput : Prop :=
  ∀ s : State,
    ((s.driveEnc (s.encIn ^^^ 0x80#8)).encOut = s.encOut ∧ (s.driveEnc (s.encIn ^^^ 0x80#8)).decOut = s.decOut) ∧
    ∀ w : Symbol, w &&& 0x1555#16 = s.decIn &&& 0x1555#16 →
      (s.driveDec w).decOut = s.decOut ∧ (s.driveDec w).encOut = s.encOut

/-- R52: no validity check. `decode` completes on any word, and each pair, malformed or not, decodes by its even bit;
pair 7 may be anything. -/
def Obligations.MalformedPairsDecodeByTheirEvenBit : Prop :=
  ∀ (n : Int) (s : State), ∃ (t : State) (p : Payload),
    exec (.decode n) s = .next t ∧ t.readings = .payload p :: s.readings ∧
    ∀ j < 7,
      (pairOf t.decIn j = 0b10#2 → p.getLsbD (6 - j) = false) ∧
      (pairOf t.decIn j = 0b01#2 → p.getLsbD (6 - j) = true) ∧
      (pairOf t.decIn j = 0b00#2 → p.getLsbD (6 - j) = false) ∧
      (pairOf t.decIn j = 0b11#2 → p.getLsbD (6 - j) = true)

/-- R53: applying the clock mask before decoding makes no difference. -/
def Obligations.ClockMaskDoesNotChangeDecoding : Prop :=
  ∀ (s : State) (w : Symbol), (s.driveDec (w ^^^ 0xAAAA#16)).decOut = (s.driveDec w).decOut

/-- From R54: no shift of `decode` loses a 1, so a result of any width of 7 bits or more, and natural numbers, give the
same payload. -/
def Obligations.DecodeResultWidthDoesNotMatter : Prop :=
  ∀ (s : State), s.decOut.toNat = gatherNat s.decIn ∧
    ∀ w : Nat, 7 ≤ w → (gatherAt w s.decIn).toNat = gatherNat s.decIn

/-- R55: `decode` is onto 0 to 127; every payload has exactly 512 preimages, exactly one of them well formed. -/
def Obligations.EveryPayloadHas512Preimages : Prop :=
  ∀ p : Payload,
    (∃ f : Fin 512 → Symbol, (∀ a b, f a = f b → a = b) ∧ ∀ w, manchesterDecode w = p ↔ ∃ a, f a = w) ∧
    ∃ w, (manchesterDecode w = p ∧ wellFormedSymbol w = true) ∧
      ∀ u, manchesterDecode u = p ∧ wellFormedSymbol u = true → u = w

/-! ## Both units together -/

/-- From R57 and R58: encode a host integer, put the symbol on the decoder's input, and the low 7 bits come back; on
payloads the round trip is the identity. R58 says so for every non-negative host integer; for a negative one the
statement rests on the MODEL'S CHOICE of its two's-complement pattern (log entry 6, DEDUCED from R7 and D4). -/
def Obligations.RoundTripKeepsTheLowSevenBits : Prop :=
  (∀ (n : Int) (s : State), ∃ t u p, exec (.encode n) s = .next t ∧ exec (.decode (t.encOut.toNat : Int)) t = .next u ∧
    u.readings = .payload p :: .symbol t.encOut :: s.readings ∧ (p.toNat : Int) = n % 128) ∧
  ∀ (v : PayloadIn) (s : State), (s.driveDec (s.driveEnc v).encOut).decOut.setWidth 8 = v &&& 0x7F#8

/-- R59: the other composition canonicalises. -/
def Obligations.ReencodingCanonicalises : Prop :=
  ∀ w : Symbol, ∃ c : Symbol, c = manchesterEncode ((manchesterDecode w).setWidth 8) ∧
    wellFormedSymbol c = true ∧ manchesterDecode c = manchesterDecode w ∧
    (∀ u, wellFormedSymbol u = true → manchesterDecode u = manchesterDecode w → u = c) ∧
    (c = w ↔ wellFormedSymbol w = true) ∧
    c.getLsbD 15 = true ∧ c.getLsbD 14 = false ∧
    ∀ j < 7, c.getLsbD (2 * j) = w.getLsbD (2 * j) ∧ c.getLsbD (2 * j + 1) = !(w.getLsbD (2 * j))

/-- R60: one inverted symbol bit is undetected; on an odd bit or in pair 7 it does no harm, on even bit `12 - 2k` it
inverts payload bit `k`. `decode` completes on the wrong symbol as on the right one. -/
def Obligations.OneWrongSymbolBit : Prop :=
  ∀ (p : Payload) (s : State), ∀ n < 16, ∃ t q,
    exec (.decode ((manchesterEncode (p.setWidth 8) ^^^ (1#16 <<< n)).toNat : Int)) s = .next t ∧
    t.readings = .payload q :: s.readings ∧
    ((n % 2 = 1 ∨ n = 14) → q = p) ∧
    ∀ k, n + 2 * k = 12 → q = p ^^^ (1#7 <<< k)

/-- R61: both operations commute with bitwise logic, up to the clock mask. -/
def Obligations.OperationsCommuteWithBitwiseLogic : Prop :=
  (∀ w u : Symbol,
    manchesterDecode (w ^^^ u) = manchesterDecode w ^^^ manchesterDecode u ∧
    manchesterDecode (w &&& u) = manchesterDecode w &&& manchesterDecode u ∧
    manchesterDecode (w ||| u) = manchesterDecode w ||| manchesterDecode u ∧
    manchesterDecode (~~~w) = ~~~(manchesterDecode w)) ∧
  (∀ v : PayloadIn, spread v = manchesterEncode v ^^^ 0xAAAA#16) ∧
  spread 0#8 = 0x0000#16 ∧ spread 0x7F#8 = 0x3FFF#16 ∧
  (∀ v u : PayloadIn, spread (v ^^^ u) = spread v ^^^ spread u ∧
    manchesterEncode v ^^^ manchesterEncode u = spread (v ^^^ u)) ∧
  ∀ v : PayloadIn, manchesterEncode (v ^^^ 0x7F#8) = manchesterEncode v ^^^ 0x3FFF#16

/-- R62: the two bytes of a well-formed symbol, by the two tables of the rule. -/
def Obligations.BytesOfAWellFormedSymbol : Prop :=
  ∀ v : PayloadIn,
    ([0xAA#8, 0x9A#8, 0xA6#8, 0x96#8, 0xA9#8, 0x99#8, 0xA5#8, 0x95#8][(v.extractLsb' 0 3).toNat]? =
      some ((manchesterEncode v).extractLsb' 8 8)) ∧
    ([0xAA#8, 0x6A#8, 0x9A#8, 0x5A#8, 0xA6#8, 0x66#8, 0x96#8, 0x56#8, 0xA9#8, 0x69#8, 0x99#8, 0x59#8, 0xA5#8, 0x65#8,
        0x95#8, 0x55#8][(v.extractLsb' 3 4).toNat]? =
      some ((manchesterEncode v).extractLsb' 0 8))

/-! ## The boundary -/

/-- R64 and R65: under either byte order, used at both ends, the two bytes of any encoded word put on `dec_in` one at a
time as they come leave the symbol there, and reading `dec_out` then gives the payload. -/
def Obligations.SameByteOrderAtBothEndsGivesThePayload : Prop :=
  ∀ (o : Config.SymbolByteOrder) (v : PayloadIn) (s : State) (rest : List EnvEvent), ∃ t,
    Host.Core.run core 3
      { s with pending := Wrapper.receiveActs o (Wrapper.split o (manchesterEncode v)) ++ .sampleDec :: rest } = .next t ∧
    t.decIn = manchesterEncode v ∧ t.decIn = Wrapper.reassemble o (Wrapper.split o (manchesterEncode v)) ∧
    t.readings = .payload (v.setWidth 7) :: s.readings ∧ t.encIn = s.encIn ∧ t.pending = rest

/-- From R65: with different byte orders at the two ends the word is the symbol with its bytes exchanged; the decoder
answers without any sign, for payload 0x41 with 0x14. -/
def Obligations.DifferentByteOrdersExchangeTheBytes : Prop :=
  (∀ w : Symbol,
    Wrapper.reassemble .loFirst (Wrapper.split .hiFirst w) = w.extractLsb' 0 8 ++ w.extractLsb' 8 8 ∧
    Wrapper.reassemble .hiFirst (Wrapper.split .loFirst w) = w.extractLsb' 0 8 ++ w.extractLsb' 8 8) ∧
  ∀ s : State, ∃ t, exec (.decode (Wrapper.reassemble .loFirst (Wrapper.split .hiFirst (manchesterEncode 0x41#8))).toNat) s
    = .next t ∧ t.decIn = 0xA99A#16 ∧ t.readings = .payload 0x14#7 :: s.readings

/-- A symbol is sixteen bits on the line, and whichever orders hold, the same orders at the other end give the symbol
back; no other number of bits is a symbol. The two orders are the open parameters of D9 and D10 (R39). The MODEL'S
CHOICES (log entry 8, DESIGN CHOICE): that the bytes go in the byte order and the bits within each byte in the bit order,
and that any number of bits other than sixteen is no symbol; the spec says neither. -/
def Obligations.SameLineOrdersGiveTheSymbolBack : Prop :=
  ∀ (o : Config.SymbolByteOrder) (l : Config.LineBitOrder) (w : Symbol),
    (Wrapper.symbolOnLine o l w).length = 16 ∧
    Wrapper.symbolOffLine o l (Wrapper.symbolOnLine o l w) = some w ∧
    ∀ bits : List Bool, bits.length ≠ 16 → Wrapper.symbolOffLine o l bits = none

/-- From R32 a to d: a host integer is reduced to the port's width and nothing more is lost, and the results as host
integers lie in 0x9555 to 0xAAAA and in 0 to 127. R32 says nothing of negative integers: for those the statement rests on
the MODEL'S CHOICE of their two's-complement pattern (log entry 6, DEDUCED from R7, D4 and D5). -/
def Obligations.HostIntegersAreReducedAtTheBoundary : Prop :=
  ∀ (n : Int) (s : State),
    exec (.encode n) s = exec (.encode (n % 256)) s ∧ exec (.decode n) s = exec (.decode (n % 65536)) s ∧
    (∃ t r, exec (.encode n) s = .next t ∧ t.readings = r :: s.readings ∧ 0x9555 ≤ r.toHost ∧ r.toHost ≤ 0xAAAA) ∧
    ∃ t r, exec (.decode n) s = .next t ∧ t.readings = r :: s.readings ∧ 0 ≤ r.toHost ∧ r.toHost ≤ 127

/-- From R37: a use of a unit is to put the operand on its input and read its output. That a use is ONE step, which ends
as the two acts in two steps do, is the MODEL'S CHOICE (log entry 3, DESIGN CHOICE); for a negative operand so is its
two's-complement pattern (log entry 6, DEDUCED). -/
def Obligations.AUseIsADriveAndARead : Prop :=
  ∀ (n : Int) (s : State) (rest : List EnvEvent),
    Host.Core.run core 1 { s with pending := .call (.encode n) :: rest } =
      Host.Core.run core 2 { s with pending := .driveEnc (BitVec.ofInt 8 n) :: .sampleEnc :: rest } ∧
    Host.Core.run core 1 { s with pending := .call (.decode n) :: rest } =
      Host.Core.run core 2 { s with pending := .driveDec (BitVec.ofInt 16 n) :: .sampleDec :: rest }

/-- From R21 and R80: while one byte of `dec_in` has changed and the other not, `dec_out` is the decoding of the word as
it stands; payload bits 0 to 2 come from the high byte, 3 to 6 from the low byte. -/
def Obligations.HalfUpdatedInputDecodesAsItStands : Prop :=
  ∀ (s : State) (b : Byte) (rest : List EnvEvent),
    (∃ t, step { s with pending := .driveDecHigh b :: rest } = .next t ∧ t.encOut = s.encOut ∧
      t.readings = s.readings ∧ t.pending = rest ∧
      (∀ k < 3, t.decOut.getLsbD k = b.getLsbD (4 - 2 * k)) ∧
      ∀ k, 3 ≤ k → t.decOut.getLsbD k = s.decOut.getLsbD k) ∧
    ∃ t, step { s with pending := .driveDecLow b :: rest } = .next t ∧ t.encOut = s.encOut ∧
      t.readings = s.readings ∧ t.pending = rest ∧
      (∀ k < 3, t.decOut.getLsbD k = s.decOut.getLsbD k) ∧
      ∀ k, 3 ≤ k → k < 7 → t.decOut.getLsbD k = b.getLsbD (12 - 2 * k)

/-- From R21: reading an output has no side effect on the block and may be repeated: every repetition reads the same
word. -/
def Obligations.ReadingAnOutputMayBeRepeated : Prop :=
  ∀ (k : Nat) (s : State) (rest : List EnvEvent),
    (∃ t, Host.Core.run core k { s with pending := List.replicate k .sampleEnc ++ rest } = .next t ∧
      t.encIn = s.encIn ∧ t.decIn = s.decIn ∧ t.pending = rest ∧
      t.readings = List.replicate k (.symbol s.encOut) ++ s.readings) ∧
    ∃ t, Host.Core.run core k { s with pending := List.replicate k .sampleDec ++ rest } = .next t ∧
      t.encIn = s.encIn ∧ t.decIn = s.decIn ∧ t.pending = rest ∧
      t.readings = List.replicate k (.payload s.decOut) ++ s.readings

/-- From R69 and Program 5: both inputs may change at one instant, and each output answers its own input. -/
def Obligations.BothUnitsAnswerAtOnce : Prop :=
  ∀ (v : PayloadIn) (w : Symbol) (s : State) (rest : List EnvEvent), ∃ t,
    step { s with pending := .driveBoth v w :: rest } = .next t ∧
    t.encOut = encodeWired v ∧ t.decOut = decodeWired w ∧ t.readings = s.readings ∧ t.pending = rest

/-! ## Statelessness, independence, runs -/

/-- R12 and R13: at every instant of every run the outputs are the functions of the inputs, in the bit-by-bit forms of
R41 and R49; there is no word for which an output is undefined, held or delayed. -/
def Obligations.OutputsFollowInputsAtEveryInstant : Prop :=
  ∀ (k : Nat) (s : State), ∃ t, Host.Core.run core k s = .next t ∧
    t.encOut = encodeWired t.encIn ∧ t.decOut = decodeWired t.decIn

/-- From R9: two evaluations with the same input give the same output, whatever happened between them: here, at two
states reached by any runs from any states. -/
def Obligations.AUseForgetsEverythingBefore : Prop :=
  ∀ (i : Instr) (s₁ s₂ : State) (k₁ k₂ : Nat), ∃ t₁ t₂ u₁ u₂ r,
    Host.Core.run core k₁ s₁ = .next t₁ ∧ Host.Core.run core k₂ s₂ = .next t₂ ∧
    exec i t₁ = .next u₁ ∧ exec i t₂ = .next u₂ ∧
    u₁.readings = r :: t₁.readings ∧ u₂.readings = r :: t₂.readings

/-- From R75: no step faults, hangs or is refused, and a run of any length from any state completes, each step taking
the next act until none is left. That a step takes one pending act, and changes nothing when there is none, is the
MODEL'S CHOICE (log entries 4 and 5, DESIGN CHOICE). -/
def Obligations.EveryRunCompletes : Prop :=
  ∀ (k : Nat) (s : State), SafeRun k s ∧
    ∃ t, Host.Core.run core k s = .next t ∧ t.pending = s.pending.drop k

/-- From R22: ENC and DEC do not influence each other. Two environments whose acts agree on ENC's ports end, when all
their acts are done, with the same word on `enc_in` and the same readings of `enc_out`, whatever they did to DEC; and
the same with the units exchanged. One of the two may be the unit used alone. -/
def Obligations.UnitsDoNotInfluenceEachOther : Prop :=
  ∀ s t : State, ∃ s' t' : State,
    Host.Core.run core s.pending.length s = .next s' ∧ Host.Core.run core t.pending.length t = .next t' ∧
    (s.encIn = t.encIn → s.symbolsRead = t.symbolsRead →
      s.pending.filterMap EnvEvent.encPart = t.pending.filterMap EnvEvent.encPart →
      s'.encIn = t'.encIn ∧ s'.encOut = t'.encOut ∧ s'.symbolsRead = t'.symbolsRead) ∧
    (s.decIn = t.decIn → s.payloadsRead = t.payloadsRead →
      s.pending.filterMap EnvEvent.decPart = t.pending.filterMap EnvEvent.decPart →
      s'.decIn = t'.decIn ∧ s'.decOut = t'.decOut ∧ s'.payloadsRead = t'.payloadsRead)

/-- From R79: a user who keeps an input stable reads the function of it, whatever acts on the other unit and whatever
reads come between. -/
def Obligations.AStableInputIsReadUndisturbed : Prop :=
  ∀ (es rest : List EnvEvent) (s : State),
    (∀ v : PayloadIn, (∀ e ∈ es, e.drivesEnc = false) →
      ∃ t, Host.Core.run core (es.length + 2) { s with pending := .driveEnc v :: (es ++ .sampleEnc :: rest) } = .next t ∧
        t.pending = rest ∧ t.readings.head? = some (.symbol (encodeWired v))) ∧
    ∀ w : Symbol, (∀ e ∈ es, e.drivesDec = false) →
      ∃ t, Host.Core.run core (es.length + 2) { s with pending := .driveDec w :: (es ++ .sampleDec :: rest) } = .next t ∧
        t.pending = rest ∧ t.readings.head? = some (.payload (decodeWired w))

/-- From R81: on a shared port, a user who drives `a` and reads after another drove `b` reads the function of `b`. -/
def Obligations.ASharedPortReadsTheLastDrive : Prop :=
  ∀ (s : State) (rest : List EnvEvent),
    (∀ a b : PayloadIn, ∃ t,
      Host.Core.run core 3 { s with pending := .driveEnc a :: .driveEnc b :: .sampleEnc :: rest } = .next t ∧
      t.readings = .symbol (encodeWired b) :: s.readings) ∧
    ∀ a b : Symbol, ∃ t,
      Host.Core.run core 3 { s with pending := .driveDec a :: .driveDec b :: .sampleDec :: rest } = .next t ∧
      t.readings = .payload (decodeWired b) :: s.readings

/-- From R22 and R16: uses of the block in call form, however many users' calls are interleaved, give each call the
function of its own argument, in order. That a call on a shared instance reads its own operand rests on the MODEL'S
CHOICE that a use is one step (log entry 3, DESIGN CHOICE, unsafe), which leaves no room for another user between the
drive and the read; where the two are apart, R81's hazard holds (`Obligations.ASharedPortReadsTheLastDrive`). -/
def Obligations.CallsGiveTheirOwnResultsInOrder : Prop :=
  ∀ (calls : List Instr) (s : State) (rest : List EnvEvent), ∃ t,
    Host.Core.run core calls.length { s with pending := calls.map .call ++ rest } = .next t ∧
    t.pending = rest ∧ t.readings = (calls.map resultOf).reverse ++ s.readings

/-- Frames: what each operation leaves unchanged when it gives a next state (R40, R48: it reads and writes nothing
else). There is no other register, no flag and no memory (R9, R15, R17). -/
def Obligations.OperationsLeaveTheRestUnchanged : Prop :=
  (∀ (n : Int) (s t : State), exec (.encode n) s = .next t →
    t.decIn = s.decIn ∧ t.decOut = s.decOut ∧ t.pending = s.pending ∧ t.payloadsRead = s.payloadsRead ∧
    t.readings.drop 1 = s.readings) ∧
  ∀ (n : Int) (s t : State), exec (.decode n) s = .next t →
    t.encIn = s.encIn ∧ t.encOut = s.encOut ∧ t.pending = s.pending ∧ t.symbolsRead = s.symbolsRead ∧
    t.readings.drop 1 = s.readings

/-- From R34, R46 and R22: every word ever read at `enc_out` is a well-formed symbol; every step keeps it so, from every
state where it is so. -/
def Obligations.StepKeepsReadSymbolsWellFormed : Prop :=
  ∀ s t : State, ReadingsGenuine s → step s = .next t → ReadingsGenuine t

/-- The invariant holds at reset (nothing has been read: the model's choice, assumption 2). -/
def Obligations.ResetHasReadNothingMalformed : Prop := ReadingsGenuine State.reset

/-- R77: an input at zero gives the output the rule names, in any state; at the model's reset, where both inputs are
zero by the model's choice (assumption 2), the outputs are 0xAAAA and 0x00. -/
def Obligations.OutputsAtResetAreFunctionsOfTheInputs : Prop :=
  (∀ s : State, s.encIn = 0x00#8 → s.encOut = 0xAAAA#16) ∧ (∀ s : State, s.decIn = 0x0000#16 → s.decOut = 0x00#7) ∧
  State.reset.encOut = 0xAAAA#16 ∧ State.reset.decOut = 0x00#7

/-- The corner cases and worked examples of R40 and R48, the source's misprint corrected (90_conflicts.md C1). -/
def Obligations.WorkedValuesOfBothOperations : Prop :=
  ∀ s : State,
    (∀ c ∈ [((0x00 : Int), 0xAAAA#16), (0x7F, 0x9555#16), (0x80, 0xAAAA#16), (0xFF, 0x9555#16), (0x41, 0x9AA9#16)],
      ∃ t, exec (.encode c.1) s = .next t ∧ t.readings = .symbol c.2 :: s.readings) ∧
    ∀ c ∈ [((0xAAAA : Int), 0x00#7), (0x9555, 0x7F#7), (0x0000, 0x00#7), (0xFFFF, 0x7F#7), (0x5555, 0x7F#7),
        (0x0001, 0x40#7), (0x1000, 0x01#7), (0xC000, 0x00#7), (0x2AAA, 0x00#7), (0x9AA9, 0x41#7)],
      ∃ t, exec (.decode c.1) s = .next t ∧ t.readings = .payload c.2 :: s.readings
end

