-- ==== Sys2Proof/Laws/Codec.lean ====
section
/-! SUPPORT. Laws/Codec: one spec lemma per function of the codec: what each bit of its result is. Later proofs cite
these and do not unfold the loops. -/

namespace Sys2Proof.Machine

/-- The parameters of R4 fit one another and the word types: seven pairs of two bits carry the payload, fourteen of the
symbol's sixteen bits. -/
theorem parameters_fit (v : PayloadIn) (w : Symbol) (p : Payload) :
    Config.usedPairs = Config.nBits ∧ Config.usedPairs * Config.pairW = 14 ∧ Config.encInUsedW = Config.nBits ∧
      Config.decOutW = Config.nBits ∧ v.toNat < 2 ^ Config.encInSigW ∧ w.toNat < 2 ^ Config.symbolW ∧
      w.toNat < 2 ^ Config.decInSigW ∧ p.toNat < 2 ^ Config.decOutW :=
  ⟨rfl, rfl, rfl, rfl, v.isLt, w.isLt, w.isLt, p.isLt⟩

/-- One append puts both bits of the new pair in pair 0 and moves every other bit up by two (R40). -/
theorem appendPair_getLsbD (acc : BitVec 16) (b : Bool) (i : Nat) :
    (appendPair acc b).getLsbD i = if i < 2 then b else decide (i < 16) && acc.getLsbD (i - 2) := by
  unfold appendPair Config.pairW
  cases b
  · by_cases h : i < 2 <;> simp [h]
  · by_cases h : i < 2
    · interval_cases i <;> simp
    · have h3 : (3#16).getLsbD i = false := by
        rcases Nat.lt_or_ge i 16 with h16 | h16
        · interval_cases i <;> simp_all
        · exact BitVec.getLsbD_of_ge _ _ h16
      simp [h, h3]

/-- One append puts the sampled bit in bit 0 and moves every other bit up by one (R48). -/
theorem appendBit_getLsbD (res : BitVec 7) (t : Bool) (i : Nat) :
    (appendBit res t).getLsbD i = if i = 0 then t else decide (i < 7) && res.getLsbD (i - 1) := by
  unfold appendBit
  rcases Nat.eq_zero_or_pos i with rfl | h
  · cases t <;> simp
  · have h1 : (1#7).getLsbD i = false := by
      rcases Nat.lt_or_ge i 7 with h7 | h7
      · interval_cases i <;> simp_all
      · exact BitVec.getLsbD_of_ge _ _ h7
    have h0 : i ≠ 0 := by omega
    cases t <;> simp [h0, h1]

/-- The loop's accumulator holds payload bit `6 - j` in both bits of pair `j`, and zero above pair 6 (R41, proof
sketch). -/
theorem spread_getLsbD (v : PayloadIn) (i : Nat) :
    (spread v).getLsbD i = (decide (i < 14) && v.getLsbD (6 - i / 2)) := by
  have hr : List.range Config.nBits = [0, 1, 2, 3, 4, 5, 6] := rfl
  have hm : v &&& 0xFF#8 = v := BitVec.and_allOnes
  rcases Nat.lt_or_ge i 16 with h | h
  · unfold spread
    rw [hr, hm]
    simp only [List.foldl, appendPair_getLsbD]
    interval_cases i <;> simp
  · rw [BitVec.getLsbD_of_ge _ _ h]
    simp; omega

/-- The clock mask has every odd bit 1 and every even bit 0 (R28). -/
theorem clockMask_getLsbD (i : Nat) : Config.clockMask.getLsbD i = decide (i < 16 ∧ i % 2 = 1) := by
  rcases Nat.lt_or_ge i 16 with h | h
  · interval_cases i <;> rfl
  · rw [BitVec.getLsbD_of_ge _ _ h]
    simp; omega

/-- Every bit of a symbol: an odd bit is complemented by the clock mask, an even bit is the payload's (R29, R41). -/
theorem manchesterEncode_getLsbD (v : PayloadIn) (i : Nat) :
    (manchesterEncode v).getLsbD i =
      ((decide (i < 14) && v.getLsbD (6 - i / 2)) ^^ decide (i < 16 ∧ i % 2 = 1)) := by
  unfold manchesterEncode
  rw [BitVec.getLsbD_xor, spread_getLsbD, clockMask_getLsbD]

/-- Every bit of a decoded payload: output bit `k` is input bit `12 - 2k` (R31, R49). -/
theorem manchesterDecode_getLsbD (s : Symbol) (k : Nat) :
    (manchesterDecode s).getLsbD k = (decide (k < 7) && s.getLsbD (12 - 2 * k)) := by
  have hr : List.range Config.nBits = [0, 1, 2, 3, 4, 5, 6] := rfl
  have hm : s &&& 0xFFFF#16 = s := BitVec.and_allOnes
  rcases Nat.lt_or_ge k 7 with h | h
  · unfold manchesterDecode
    rw [hr, hm]
    simp only [List.foldl, appendBit_getLsbD]
    interval_cases k <;> simp
  · rw [BitVec.getLsbD_of_ge _ _ h]
    simp; omega

/-- The wiring of R49 and the loop of R48 are one function. -/
theorem manchesterDecode_eq_wired (s : Symbol) : manchesterDecode s = decodeWired s := by
  apply BitVec.eq_of_getLsbD_eq
  intro k hk
  have hw : (decodeWired s).getLsbD k = _ := BitVec.getLsbD_ofBoolListBE
  rw [manchesterDecode_getLsbD, hw]
  interval_cases k <;> simp

/-- The wiring of R41 and the loop of R40 are one function. -/
theorem manchesterEncode_eq_wired (v : PayloadIn) : manchesterEncode v = encodeWired v := by
  apply BitVec.eq_of_getLsbD_eq
  intro i hi
  have hw : (encodeWired v).getLsbD i = _ := BitVec.getLsbD_ofBoolListBE
  rw [manchesterEncode_getLsbD, hw]
  interval_cases i <;> simp

/-- The two bits of a pair: its even bit is bit 0, its odd bit is bit 1 (R6). -/
theorem pairOf_getLsbD (w : Symbol) (j i : Nat) :
    (pairOf w j).getLsbD i = (decide (i < 2) && w.getLsbD (2 * j + i)) := by
  simp [pairOf, BitVec.getLsbD_extractLsb']

end Sys2Proof.Machine
end

