-- ==== Sys2Proof/Laws/Decode.lean ====
section
/-! SUPPORT. Laws/Decode: what the decoder makes of a port word's own bits, and of a length no format has. -/

namespace Sys2Proof

/-- A port word written as its length and its bits is read as itself (R26, R30). -/
@[simp] theorem portWordOfBits_self (w : PortWord) : portWordOfBits w.nbits w.bits = .ok w := by
  cases w <;> simp [portWordOfBits, PortWord.nbits, PortWord.bits, Config.encInSigW, Config.decInSigW]

/-- A table word that is a port word's bits is that word's operation. -/
@[simp] theorem decodeTableWord_self (w : PortWord) : decodeTableWord w.nbits w.bits = some (decodePortWord w) := by
  simp [decodeTableWord, decodeBits, Except.map]

/-- A table word is decoded exactly when its bits are a port word. -/
theorem decodeTableWord_eq_some {nbits w : Nat} {i : Instr} :
    decodeTableWord nbits w = some i ↔ ∃ p, portWordOfBits nbits w = .ok p ∧ decodePortWord p = i := by
  unfold decodeTableWord decodeBits
  cases portWordOfBits nbits w <;> simp [Except.map]

end Sys2Proof
end

