-- ==== Sys2Proof/Laws/State.lean ====
section
/-! SUPPORT. Laws/State: what each act on the ports leaves in each field, by definition (R12, R13, R21, R22). -/

namespace Sys2Proof.Machine.State

variable (s : State) (v : PayloadIn) (w : Symbol) (b : Byte)

@[simp] theorem driveEnc_encIn : (s.driveEnc v).encIn = v := rfl
@[simp] theorem driveEnc_decIn : (s.driveEnc v).decIn = s.decIn := rfl
@[simp] theorem driveEnc_pending : (s.driveEnc v).pending = s.pending := rfl
@[simp] theorem driveEnc_readings : (s.driveEnc v).readings = s.readings := rfl
@[simp] theorem driveEnc_encOut : (s.driveEnc v).encOut = manchesterEncode v := rfl
@[simp] theorem driveEnc_decOut : (s.driveEnc v).decOut = s.decOut := rfl

@[simp] theorem driveDec_encIn : (s.driveDec w).encIn = s.encIn := rfl
@[simp] theorem driveDec_decIn : (s.driveDec w).decIn = w := rfl
@[simp] theorem driveDec_pending : (s.driveDec w).pending = s.pending := rfl
@[simp] theorem driveDec_readings : (s.driveDec w).readings = s.readings := rfl
@[simp] theorem driveDec_encOut : (s.driveDec w).encOut = s.encOut := rfl
@[simp] theorem driveDec_decOut : (s.driveDec w).decOut = manchesterDecode w := rfl

@[simp] theorem driveDecHigh_encIn : (s.driveDecHigh b).encIn = s.encIn := rfl
@[simp] theorem driveDecHigh_decIn : (s.driveDecHigh b).decIn = b ++ s.decIn.extractLsb' 0 8 := rfl
@[simp] theorem driveDecHigh_pending : (s.driveDecHigh b).pending = s.pending := rfl
@[simp] theorem driveDecHigh_readings : (s.driveDecHigh b).readings = s.readings := rfl

@[simp] theorem driveDecLow_encIn : (s.driveDecLow b).encIn = s.encIn := rfl
@[simp] theorem driveDecLow_decIn : (s.driveDecLow b).decIn = s.decIn.extractLsb' 8 8 ++ b := rfl
@[simp] theorem driveDecLow_pending : (s.driveDecLow b).pending = s.pending := rfl
@[simp] theorem driveDecLow_readings : (s.driveDecLow b).readings = s.readings := rfl

@[simp] theorem sampleEnc_encIn : s.sampleEnc.encIn = s.encIn := rfl
@[simp] theorem sampleEnc_decIn : s.sampleEnc.decIn = s.decIn := rfl
@[simp] theorem sampleEnc_pending : s.sampleEnc.pending = s.pending := rfl
@[simp] theorem sampleEnc_readings : s.sampleEnc.readings = .symbol s.encOut :: s.readings := rfl
@[simp] theorem sampleEnc_encOut : s.sampleEnc.encOut = s.encOut := rfl
@[simp] theorem sampleEnc_decOut : s.sampleEnc.decOut = s.decOut := rfl

@[simp] theorem sampleDec_encIn : s.sampleDec.encIn = s.encIn := rfl
@[simp] theorem sampleDec_decIn : s.sampleDec.decIn = s.decIn := rfl
@[simp] theorem sampleDec_pending : s.sampleDec.pending = s.pending := rfl
@[simp] theorem sampleDec_readings : s.sampleDec.readings = .payload s.decOut :: s.readings := rfl
@[simp] theorem sampleDec_encOut : s.sampleDec.encOut = s.encOut := rfl
@[simp] theorem sampleDec_decOut : s.sampleDec.decOut = s.decOut := rfl

end Sys2Proof.Machine.State
end

