-- ==== Sys2Proof/Laws/PerInstr.lean ====
section
/-! SUPPORT. Laws/PerInstr: the statements made constructor by constructor. -/

namespace Sys2Proof.Laws.ReEncode

/-- What an operation's word decodes to is well formed and has the same word: reducing the operand a second time
changes nothing (R32). -/
def Statement (i : Instr) : Prop :=
  (decodePortWord (Sys2Proof.encode i)).WellFormed ∧
    Sys2Proof.encode (decodePortWord (Sys2Proof.encode i)) = Sys2Proof.encode i

theorem encode (input : Int) : Statement (.encode input) := by
  have h := (BitVec.ofInt 8 input).isLt
  refine ⟨?_, ?_⟩
  · simp [Sys2Proof.encode, decodePortWord, Instr.WellFormed, Instr.wf]; omega
  · simp only [Sys2Proof.encode, decodePortWord, BitVec.ofInt_natCast, BitVec.ofNat_toNat, BitVec.setWidth_eq]

theorem decode (input : Int) : Statement (.decode input) := by
  have h := (BitVec.ofInt 16 input).isLt
  refine ⟨?_, ?_⟩
  · simp [Sys2Proof.encode, decodePortWord, Instr.WellFormed, Instr.wf]; omega
  · simp only [Sys2Proof.encode, decodePortWord, BitVec.ofInt_natCast, BitVec.ofNat_toNat, BitVec.setWidth_eq]

end Sys2Proof.Laws.ReEncode
end

