-- ==== Sys2Proof/Laws/Step.lean ====
section
/-! SUPPORT. Laws/Step: what each operation, each act and one step can do, said once. -/

namespace Sys2Proof.Machine

/-- `encode` answers one next state: its operand on `enc_in`, the output read (R37, R40). -/
@[simp] theorem exec_encode (n : Int) (s : State) :
    exec (.encode n) s = .next (s.driveEnc (encOperand n)).sampleEnc := rfl

/-- `decode` answers one next state: its operand on `dec_in`, the output read (R37, R48). -/
@[simp] theorem exec_decode (n : Int) (s : State) :
    exec (.decode n) s = .next (s.driveDec (decOperand n)).sampleDec := rfl

/-- Everything an act can do: it answers a next state, and takes nothing from and adds nothing to what is pending. -/
theorem perform_cases (e : EnvEvent) (s : State) :
    ∃ t, perform e s = .next t ∧ t.pending = s.pending ∧
      (t.readings = s.readings ∨ t.readings = .symbol t.encOut :: s.readings ∨
        t.readings = .payload t.decOut :: s.readings) := by
  cases e with
  | use w => cases w <;> exact ⟨_, rfl, rfl, by simp⟩
  | call i => cases i <;> exact ⟨_, rfl, rfl, by simp⟩
  | driveEnc v => exact ⟨_, rfl, rfl, by simp⟩
  | driveDec w => exact ⟨_, rfl, rfl, by simp⟩
  | driveBoth v w => exact ⟨_, rfl, rfl, by simp⟩
  | driveDecHigh b => exact ⟨_, rfl, rfl, by simp⟩
  | driveDecLow b => exact ⟨_, rfl, rfl, by simp⟩
  | sampleEnc => exact ⟨_, rfl, rfl, by simp⟩
  | sampleDec => exact ⟨_, rfl, rfl, by simp⟩

/-- With nothing pending, a step changes nothing (R77). -/
theorem step_nil {s : State} (h : s.pending = []) : step s = .next s := by
  unfold step; rw [h]

/-- With an act pending, a step is that act. -/
theorem step_cons {s : State} {e : EnvEvent} {rest : List EnvEvent} (h : s.pending = e :: rest) :
    step s = perform e { s with pending := rest } := by
  unfold step; rw [h]

/-- Every step answers a next state (R75). -/
theorem step_answers_next (s : State) : ∃ t, step s = .next t ∧ t.pending = s.pending.drop 1 := by
  rcases h : s.pending with _ | ⟨e, rest⟩
  · exact ⟨s, step_nil h, by simp [h]⟩
  · obtain ⟨t, ht, hp, -⟩ := perform_cases e { s with pending := rest }
    exact ⟨t, (step_cons h).trans ht, by simp [hp]⟩

/-- A run of one step and then more. -/
theorem run_succ_of_step {s t : State} (k : Nat) (h : step s = .next t) :
    Host.Core.run Sys2Proof.core (k + 1) s = Host.Core.run Sys2Proof.core k t := by
  have h' : Sys2Proof.core.step s = .next t := h
  simp only [Host.Core.run, h']

end Sys2Proof.Machine
end

