-- ==== Sys2Proof/Tests/Slice0.lean ====
section
/-! SUPPORT. Tests: every expected value is the spec's (95_test_vectors.md, or the encoding strings of the opcode table);
then, for each statement with hypotheses, a witness that meets them. -/

namespace Sys2Proof.Tests

open Sys2Proof.Machine

/-- The next state of an outcome, if it is one. -/
def nextOf : Host.Outcome State Fault Refusal → Option State
  | .next s => some s
  | .fault _ => none
  | .refused _ => none

/-- A state with one act pending. -/
def about (e : EnvEvent) : State := { State.reset with pending := [e] }

/-- The latest reading after one step from `about e`, as a host integer. -/
def readAfter (e : EnvEvent) : Option Int :=
  (nextOf (step (about e))).bind (fun s => s.readings.head?.map Reading.toHost)

/-! ## WellFormed: an ill-formed operation for each check -/

theorem test_wf_encode_below_port : (Instr.encode (-1)).wf = false := by decide
theorem test_wf_encode_above_port : (Instr.encode 256).wf = false := by decide
theorem test_wf_decode_below_port : (Instr.decode (-1)).wf = false := by decide
theorem test_wf_decode_above_port : (Instr.decode 65536).wf = false := by decide

/-! ## Decode: words written from `xppppppp` and `uuqdqdqdqdqdqdqd` -/

/-- x = 1, p = 1000001: the ignored bit stays in the operand; the operation ignores it. -/
theorem test_decodes_encode_word : decodeTableWord 8 0b1_1000001 = some (.encode 193) := by decide

/-- uu = 10, then q d for pairs 6 to 0: 01 10 10 10 10 10 01, the symbol of payload 0x41. -/
theorem test_decodes_decode_word : decodeTableWord 16 0b10_01_10_10_10_10_10_01 = some (.decode 39593) := by decide

theorem test_encodes_encode_word : encode (.encode 193) = .encIn 0b11000001#8 := by decide
theorem test_encodes_decode_word : encode (.decode 39593) = .decIn 0b1001101010101001#16 := by decide

/-- A length of no input format is refused by name. -/
theorem test_decode_refuses_length : (portWordOfBits 12 0).toOption = none ∧ decodeTableWord 12 0 = none := by decide

/-! ## One step of each operation -/

/-- 95_test_vectors.md 2.2: payload bit 0 lands in pair 6, bit 6 in pair 0; bit 7 is ignored; host integers. -/
theorem test_encode_values :
    [0x01, 0x40, 0x55, 0x3F, 0xC1, 0x1234, -1].map (fun n => readAfter (.call (.encode n))) =
      [some 0x9AAA, some 0xAAA9, some 0x9999, some 0x9556, some 0x9AA9, some 0xA996, some 0x9555] := by decide

/-- A raw word on `enc_in` runs `encode` and leaves `dec_in` alone (R40). -/
theorem test_encode_word_leaves_decoder :
    nextOf (step (about (.use (.encIn 0x7F#8)))) =
      some { State.reset with encIn := 0x7F#8, readings := [.symbol 0x9555#16] } := by decide

/-- 95_test_vectors.md 4.2: bit order, ignored bits, malformed words, the source's misprint, host integers. -/
theorem test_decode_values :
    [0x0001, 0x1000, 0x2AAA, 0xC000, 0x9455, 0xBEEF, 0x1234, 0x19555, -1].map (fun n => readAfter (.call (.decode n))) =
      [some 0x40, some 0x01, some 0x00, some 0x00, some 0x7B, some 0x6B, some 0x31, some 0x7F, some 0x7F] := by decide

/-- A raw word on `dec_in` runs `decode` and leaves `enc_in` alone (R48). -/
theorem test_decode_word_leaves_encoder :
    nextOf (step (about (.use (.decIn 0x9AA9#16)))) =
      some { State.reset with decIn := 0x9AA9#16, readings := [.payload 0x41#7] } := by decide

/-- A placed row word is run by the very next step. -/
theorem test_placed_word_runs :
    (nextOf (step (State.reset.withFetchWord 8 0x41))).map State.readings = some [.symbol 0x9AA9#16] ∧
      (nextOf (step (State.reset.withFetchWord 16 0x9AA9))).map State.readings = some [.payload 0x41#7] := by decide

/-- 95_test_vectors.md 4.4 and Program 1: `dec_in` half updated from 0x9AA9 with the low byte 0x9A. -/
theorem test_half_update :
    (nextOf (step { about (.driveDecLow 0x9A#8) with decIn := 0x9AA9#16 })).map State.decIn = some 0x9A9A#16 := by decide

/-- 95_test_vectors.md Program 1: the bytes of 0x9AA9 under both orders. -/
theorem test_split_orders :
    Wrapper.split .hiFirst 0x9AA9#16 = (0x9A#8, 0xA9#8) ∧ Wrapper.split .loFirst 0x9AA9#16 = (0xA9#8, 0x9A#8) := by decide

/-! ## Witnesses: for each statement with hypotheses, values that meet them -/

theorem witness_DecodeInvertsEncode :
    (Instr.encode 0).WellFormed ∧ (Instr.encode 255).WellFormed ∧ (Instr.decode 0).WellFormed ∧
      (Instr.decode 65535).WellFormed := by decide

theorem witness_StepRunsTheDecodedOperation :
    (about (.use (.encIn 0x41#8))).pending = .use (.encIn 0x41#8) :: [] ∧
      (about (.use (.decIn 0xFFFF#16))).pending = .use (.decIn 0xFFFF#16) :: [] ∧
      (about (.call (.encode (-1)))).pending = .call (.encode (-1)) :: [] ∧ State.reset.pending = [] := by decide

theorem witness_PlacedTableWordIsTheNextOperation :
    decodeTableWord 8 0xFF = some (.encode 255) ∧ decodeTableWord 16 0xFFFF = some (.decode 65535) := by decide

theorem witness_EncodeAccumulatorWidthDoesNotMatter : 14 ≤ 14 ∧ (spreadAt 14 0x7F#8).toNat = 0x3FFF := by decide

theorem witness_DecodeResultWidthDoesNotMatter : 7 ≤ 7 ∧ (gatherAt 7 0xFFFF#16).toNat = 0x7F := by decide

theorem witness_EncodeIsInjectiveAndDecreasingInReversedPayload :
    (0x02#7).reverse.toNat < (0x01#7).reverse.toNat ∧ (0x40#7).reverse.toNat < (0x7F#7).reverse.toNat ∧
      manchesterEncode ((0x41#7).setWidth 8) = manchesterEncode ((0x41#7).setWidth 8) := by decide

theorem witness_WellFormedSymbolsAreTheEncodings :
    wellFormedSymbol 0x9AA9#16 = true ∧ wellFormedSymbol 0x99D9#16 = false ∧ wellFormedSymbol 0x5555#16 = false := by decide

theorem witness_IgnoredBitsChangeNoOutput : 0xEAAA#16 &&& 0x1555#16 = State.reset.decIn &&& 0x1555#16 := by decide

/-- Each of the four pair values, at pair 0 and at pair 6. -/
theorem witness_MalformedPairsDecodeByTheirEvenBit :
    (pairOf 0xAAAA#16 0 = 0b10#2 ∧ pairOf 0xAAAA#16 6 = 0b10#2) ∧ (pairOf 0x5555#16 0 = 0b01#2 ∧ pairOf 0x5555#16 6 = 0b01#2) ∧
      (pairOf 0x0000#16 0 = 0b00#2 ∧ pairOf 0x0000#16 6 = 0b00#2) ∧
      (pairOf 0xFFFF#16 0 = 0b11#2 ∧ pairOf 0xFFFF#16 6 = 0b11#2) := by decide

/-- Two preimages of one payload, the first of them well formed. -/
theorem witness_EveryPayloadHas512Preimages :
    manchesterDecode 0x9AA9#16 = 0x41#7 ∧ wellFormedSymbol 0x9AA9#16 = true ∧ manchesterDecode 0x1001#16 = 0x41#7 := by decide

theorem witness_ReencodingCanonicalises :
    wellFormedSymbol 0x9A96#16 = true ∧ manchesterDecode 0x9A96#16 = manchesterDecode 0x1234#16 := by decide

/-- The clauses of R60 at their boundaries: no bit number falls under two of them. -/
theorem witness_OneWrongSymbolBit :
    (15 < 16 ∧ 15 % 2 = 1) ∧ (13 < 16 ∧ 13 % 2 = 1) ∧ (12 < 16 ∧ 12 + 2 * 0 = 12) ∧ (0 < 16 ∧ 0 + 2 * 6 = 12) ∧
      (∀ n < 16, (n % 2 = 1 ∨ n = 14) → ∀ k < 16, n + 2 * k ≠ 12) := by decide

/-- Payload bits 2, 3 and 6: the last of the high byte, the first and the last of the low byte (95_test_vectors.md 4.2). -/
theorem witness_HalfUpdatedInputDecodesAsItStands :
    (nextOf (step (about (.driveDecHigh 0x01#8)))).map State.decOut = some 0x04#7 ∧
      (nextOf (step (about (.driveDecLow 0x40#8)))).map State.decOut = some 0x08#7 ∧
      (nextOf (step (about (.driveDecLow 0x01#8)))).map State.decOut = some 0x40#7 := by decide

/-- Two environments that agree on ENC and not on DEC, and two that agree on DEC and not on ENC. -/
theorem witness_UnitsDoNotInfluenceEachOther :
    (let s := { State.reset with pending := [.driveBoth 0x7F#8 0x9555#16, .sampleDec, .sampleEnc] }
     let t := { State.reset with decIn := 0x0001#16, pending := [.driveEnc 0x7F#8, .sampleEnc] }
     s.encIn = t.encIn ∧ s.symbolsRead = t.symbolsRead ∧
       s.pending.filterMap EnvEvent.encPart = t.pending.filterMap EnvEvent.encPart) ∧
    (let s := { State.reset with pending := [.driveBoth 0x7F#8 0x9555#16, .sampleEnc, .sampleDec] }
     let t := { State.reset with encIn := 0x01#8, pending := [.driveDec 0x9555#16, .sampleDec] }
     s.decIn = t.decIn ∧ s.payloadsRead = t.payloadsRead ∧
       s.pending.filterMap EnvEvent.decPart = t.pending.filterMap EnvEvent.decPart) := by decide

theorem witness_AStableInputIsReadUndisturbed :
    (∀ e ∈ ([.call (.decode 5), .sampleEnc, .driveDecLow 0xFF#8] : List EnvEvent), e.drivesEnc = false) ∧
      (∀ e ∈ ([.call (.encode 5), .sampleDec, .driveEnc 0xFF#8] : List EnvEvent), e.drivesDec = false) := by decide

theorem witness_SameLineOrdersGiveTheSymbolBack : ([] : List Bool).length ≠ 16 ∧ (List.replicate 17 true).length ≠ 16 := by
  decide

theorem witness_OperationsLeaveTheRestUnchanged :
    nextOf (exec (.encode 0x41) State.reset) = some { State.reset with encIn := 0x41#8, readings := [.symbol 0x9AA9#16] } ∧
      nextOf (exec (.decode 0x9AA9) State.reset) =
        some { State.reset with decIn := 0x9AA9#16, readings := [.payload 0x41#7] } := by decide

/-- A state that has read something and reads again. -/
def readingAgain : State := { about .sampleEnc with encIn := 0x41#8, readings := [.payload 0x00#7, .symbol 0x9555#16] }

theorem witness_StepKeepsReadSymbolsWellFormed :
    (∀ r ∈ readingAgain.readings, r.genuine = true) ∧
      (nextOf (step readingAgain)).map State.readings =
        some [.symbol 0x9AA9#16, .payload 0x00#7, .symbol 0x9555#16] := by decide

theorem witness_OutputsAtResetAreFunctionsOfTheInputs : State.reset.encIn = 0x00#8 ∧ State.reset.decIn = 0x0000#16 := by
  decide

end Sys2Proof.Tests
end

/-! ## Runs and uses: what a run of any length and a use of a unit can do (10_state.md R9, R12, R13) -/

namespace Sys2Proof.Machine

/-- A run of any length completes, each step taking the next pending act until none is left (R75). -/
theorem run_answers_next (k : Nat) (s : State) :
    ∃ t, Host.Core.run core k s = .next t ∧ t.pending = s.pending.drop k := by
  induction k generalizing s with
  | zero => exact ⟨s, rfl, rfl⟩
  | succ k ih =>
    obtain ⟨m, hstep, hm⟩ := step_answers_next s
    obtain ⟨t, hrun, ht⟩ := ih m
    refine ⟨t, (run_succ_of_step k hstep).trans hrun, ?_⟩
    rw [ht, hm, List.drop_drop, Nat.add_comm]

/-- `enc_out` is the wiring of `enc_in` in every state: no state field can hold or delay it (R12, R41). -/
theorem State.encOut_eq_wired (s : State) : s.encOut = encodeWired s.encIn :=
  manchesterEncode_eq_wired s.encIn

/-- `dec_out` is the wiring of `dec_in` in every state: no state field can hold or delay it (R13, R49). -/
theorem State.decOut_eq_wired (s : State) : s.decOut = decodeWired s.decIn :=
  manchesterDecode_eq_wired s.decIn

/-- An operation completes and reads its own function of its operand, with nothing of the state in it (R9, R37). -/
theorem exec_reads_resultOf (i : Instr) (s : State) :
    ∃ t, exec i s = .next t ∧ t.readings = resultOf i :: s.readings := by
  cases i with
  | encode n => exact ⟨_, exec_encode n s, by simp [resultOf]⟩
  | decode n => exact ⟨_, exec_decode n s, by simp [resultOf]⟩

/-- Settles O38: a run of any length completes, by induction on its length, and at the state it ends in, as at every
state, both outputs are the wired functions of the inputs. -/
theorem outputsFollowInputsAtEveryInstant : Obligations.OutputsFollowInputsAtEveryInstant := by
  intro k s
  obtain ⟨t, hrun, -⟩ := run_answers_next k s
  exact ⟨t, hrun, t.encOut_eq_wired, t.decOut_eq_wired⟩

/-- Settles O39: both runs complete, and the use after either reads `resultOf i`, which names no state. -/
theorem aUseForgetsEverythingBefore : Obligations.AUseForgetsEverythingBefore := by
  intro i s₁ s₂ k₁ k₂
  obtain ⟨t₁, hrun₁, -⟩ := run_answers_next k₁ s₁
  obtain ⟨t₂, hrun₂, -⟩ := run_answers_next k₂ s₂
  obtain ⟨u₁, hexec₁, hread₁⟩ := exec_reads_resultOf i t₁
  obtain ⟨u₂, hexec₂, hread₂⟩ := exec_reads_resultOf i t₂
  exact ⟨t₁, t₂, u₁, u₂, resultOf i, hrun₁, hrun₂, hexec₁, hexec₂, hread₁, hread₂⟩

end Sys2Proof.Machine

/-! ## Two units and one block: projections, runs of reads, halves of a symbol (20_memory.md R21, R22) -/

namespace Sys2Proof.Machine

/-- Unit ENC used alone (R22): the environment `s` with DEC's input at rest, only ENC's part of each act to come, and
only the words read at `enc_out`. -/
def State.encAlone (s : State) : State :=
  { encIn := s.encIn, decIn := 0x0000#16, pending := s.pending.filterMap EnvEvent.encPart, readings := s.symbolsRead }

/-- Unit DEC used alone (R22): the environment `s` with ENC's input at rest, only DEC's part of each act to come, and
only the words read at `dec_out`. -/
def State.decAlone (s : State) : State :=
  { encIn := 0x00#8, decIn := s.decIn, pending := s.pending.filterMap EnvEvent.decPart, readings := s.payloadsRead }

/-- Two environments are the same to ENC exactly when they agree on its input, its readings and its parts of the acts. -/
theorem State.encAlone_eq_iff {s t : State} :
    s.encAlone = t.encAlone ↔ s.encIn = t.encIn ∧ s.symbolsRead = t.symbolsRead ∧
      s.pending.filterMap EnvEvent.encPart = t.pending.filterMap EnvEvent.encPart := by
  simp only [State.encAlone, State.mk.injEq, true_and]
  tauto

/-- Two environments are the same to DEC exactly when they agree on its input, its readings and its parts of the acts. -/
theorem State.decAlone_eq_iff {s t : State} :
    s.decAlone = t.decAlone ↔ s.decIn = t.decIn ∧ s.payloadsRead = t.payloadsRead ∧
      s.pending.filterMap EnvEvent.decPart = t.pending.filterMap EnvEvent.decPart := by
  simp only [State.decAlone, State.mk.injEq, true_and]
  tauto

/-- To ENC a step is either nothing at all or the step of ENC used alone. -/
theorem step_encAlone {s t : State} (h : step s = .next t) :
    t.encAlone = s.encAlone ∨ step s.encAlone = .next t.encAlone := by
  obtain ⟨encIn, decIn, _ | ⟨e, rest⟩, readings⟩ := s
  · cases h; exact .inl rfl
  · cases e with
    | use w => cases w with
      | encIn v => cases h; exact .inr rfl
      | decIn w => cases h; exact .inl rfl
    | call i => cases i with
      | encode n => cases h; exact .inr rfl
      | decode n => cases h; exact .inl rfl
    | driveEnc v => cases h; exact .inr rfl
    | driveDec w => cases h; exact .inl rfl
    | driveBoth v w => cases h; exact .inr rfl
    | driveDecHigh b => cases h; exact .inl rfl
    | driveDecLow b => cases h; exact .inl rfl
    | sampleEnc => cases h; exact .inr rfl
    | sampleDec => cases h; exact .inl rfl

/-- To DEC a step is either nothing at all or the step of DEC used alone. -/
theorem step_decAlone {s t : State} (h : step s = .next t) :
    t.decAlone = s.decAlone ∨ step s.decAlone = .next t.decAlone := by
  obtain ⟨encIn, decIn, _ | ⟨e, rest⟩, readings⟩ := s
  · cases h; exact .inl rfl
  · cases e with
    | use w => cases w with
      | encIn v => cases h; exact .inl rfl
      | decIn w => cases h; exact .inr rfl
    | call i => cases i with
      | encode n => cases h; exact .inl rfl
      | decode n => cases h; exact .inr rfl
    | driveEnc v => cases h; exact .inl rfl
    | driveDec w => cases h; exact .inr rfl
    | driveBoth v w => cases h; exact .inr rfl
    | driveDecHigh b => cases h; exact .inr rfl
    | driveDecLow b => cases h; exact .inr rfl
    | sampleEnc => cases h; exact .inl rfl
    | sampleDec => cases h; exact .inr rfl

/-- The run that does every pending act. -/
def finish (s : State) : Host.Outcome State Fault Refusal := Host.Core.run core s.pending.length s

/-- With nothing pending there is nothing to finish. -/
theorem finish_nil {s : State} (h : s.pending = []) : finish s = .next s := by
  unfold finish; rw [h]; rfl

/-- After one step the rest of the acts lead to the same end. -/
theorem finish_of_step {s m : State} (h : step s = .next m) : finish s = finish m := by
  obtain ⟨m', hm', hpend⟩ := step_answers_next s
  cases h.symm.trans hm'
  rcases hp : s.pending with _ | ⟨e, rest⟩
  · cases h.symm.trans (step_nil hp); rfl
  · rw [hp, List.drop_one, List.tail_cons] at hpend
    unfold finish
    rw [hp, hpend, List.length_cons]
    exact run_succ_of_step _ h

section Projection

/-! A projection `alone` of the state under which each step is nothing at all or the projected state's own step. -/

variable {alone : State → State} (hnil : ∀ s, s.pending = [] → (alone s).pending = [])
  (hstep : ∀ s m, step s = .next m → alone m = alone s ∨ step (alone s) = .next (alone m))
include hnil hstep

/-- Finishing commutes with the projection. -/
theorem finish_alone {s t : State} (h : finish s = .next t) : finish (alone s) = .next (alone t) := by
  induction hp : s.pending generalizing s with
  | nil =>
    cases h.symm.trans (finish_nil hp)
    exact finish_nil (hnil _ hp)
  | cons e rest ih =>
    obtain ⟨m, hm, hpend⟩ := step_answers_next s
    have hrest : finish (alone m) = .next (alone t) :=
      ih ((finish_of_step hm).symm.trans h) (by rw [hpend, hp]; rfl)
    rcases hstep s m hm with hsame | hown
    · rwa [hsame] at hrest
    · exact (finish_of_step hown).trans hrest

/-- States with the same projection end with the same projection. -/
theorem alone_eq_of_finish {s t s' t' : State} (hs : finish s = .next s') (ht : finish t = .next t')
    (h : alone s = alone t) : alone s' = alone t' := by
  have hs' := finish_alone hnil hstep hs
  rw [h, finish_alone hnil hstep ht] at hs'
  exact (Host.Outcome.next.inj hs').symm

end Projection

/-- Acts that each read one word, whatever state with `Keeps` they are done in, read those words in order, the latest
first. -/
theorem run_acts_read {α : Type} {act : α → EnvEvent} {read : α → Reading} {Keeps : State → Prop}
    {rest : List EnvEvent}
    (hact : ∀ x u later, Keeps u → u.pending = act x :: later →
      ∃ t, step u = .next t ∧ Keeps t ∧ t.pending = later ∧ t.readings = read x :: u.readings)
    (xs : List α) {s : State} (hs : Keeps s) (hp : s.pending = xs.map act ++ rest) :
    ∃ t, Host.Core.run core xs.length s = .next t ∧ Keeps t ∧ t.pending = rest ∧
      t.readings = (xs.map read).reverse ++ s.readings := by
  induction xs generalizing s with
  | nil => exact ⟨s, rfl, hs, hp, rfl⟩
  | cons x xs ih =>
    obtain ⟨m, hstep, hm, hpend, hread⟩ := hact x s _ hs hp
    obtain ⟨t, hrun, ht, htpend, htread⟩ := ih hm hpend
    refine ⟨t, (run_succ_of_step _ hstep).trans hrun, ht, htpend, ?_⟩
    simp [htread, hread]

/-- An act that only reads `r` where the inputs are those of `s` may be repeated: each repetition reads `r` again. -/
theorem run_replicate_read {e : EnvEvent} {r : Reading} {s : State}
    (hread : ∀ u : State, u.encIn = s.encIn → u.decIn = s.decIn →
      perform e u = .next { u with readings := r :: u.readings }) (k : Nat) (rest : List EnvEvent) :
    ∃ t, Host.Core.run core k { s with pending := List.replicate k e ++ rest } = .next t ∧
      t.encIn = s.encIn ∧ t.decIn = s.decIn ∧ t.pending = rest ∧ t.readings = List.replicate k r ++ s.readings := by
  have hact : ∀ (_ : Unit) (u : State) later, (u.encIn = s.encIn ∧ u.decIn = s.decIn) → u.pending = e :: later →
      ∃ t, step u = .next t ∧ (t.encIn = s.encIn ∧ t.decIn = s.decIn) ∧ t.pending = later ∧
        t.readings = r :: u.readings :=
    fun _ _ _ ⟨he, hd⟩ hp => ⟨_, (step_cons hp).trans (hread _ he hd), ⟨he, hd⟩, rfl, rfl⟩
  obtain ⟨t, hrun, ⟨henc, hdec⟩, hpend, hreads⟩ :=
    run_acts_read (s := { s with pending := List.replicate k e ++ rest }) (rest := rest) hact (List.replicate k ())
      ⟨rfl, rfl⟩ (by simp)
  rw [List.length_replicate] at hrun
  exact ⟨t, hrun, henc, hdec, hpend, by simpa using hreads⟩

/-- A step whose next act is a call reads the call's own result (R37). -/
theorem step_call_reads_resultOf {u : State} {i : Instr} {later : List EnvEvent} (h : u.pending = .call i :: later) :
    ∃ t, step u = .next t ∧ t.pending = later ∧ t.readings = resultOf i :: u.readings := by
  obtain ⟨t, hstep, hpend⟩ := step_answers_next u
  obtain ⟨t', hexec, hread⟩ := exec_reads_resultOf i { u with pending := later }
  have hcall : step u = .next t' := (step_cons h).trans hexec
  cases hstep.symm.trans hcall
  exact ⟨t, hstep, by rw [hpend, h]; rfl, hread⟩

/-- Output bits 0 to 2 of a decoded word come from its high byte, bits 3 to 6 from its low byte (R80). -/
theorem manchesterDecode_append_getLsbD (hi lo : Byte) (k : Nat) :
    (manchesterDecode (hi ++ lo)).getLsbD k =
      if k < 3 then hi.getLsbD (4 - 2 * k) else decide (k < 7) && lo.getLsbD (12 - 2 * k) := by
  rw [manchesterDecode_getLsbD, BitVec.getLsbD_append]
  by_cases h : k < 3
  · have hbit : 12 - 2 * k - 8 = 4 - 2 * k := by omega
    simp [h, hbit, show ¬ 12 - 2 * k < 8 by omega, show k < 7 by omega]
  · simp [h, show 12 - 2 * k < 8 by omega]

/-- After a change of the high byte the output is the decoding of the new high byte over the old low byte (R80). -/
theorem State.driveDecHigh_decOut (s : State) (b : Byte) :
    (s.driveDecHigh b).decOut = manchesterDecode (b ++ s.decIn.extractLsb' 0 8) := rfl

/-- After a change of the low byte the output is the decoding of the old high byte over the new low byte (R80). -/
theorem State.driveDecLow_decOut (s : State) (b : Byte) :
    (s.driveDecLow b).decOut = manchesterDecode (s.decIn.extractLsb' 8 8 ++ b) := rfl

/-- `dec_out` is the decoding of the high byte of `dec_in` over its low byte. -/
theorem State.decOut_eq_decode_bytes (s : State) :
    s.decOut = manchesterDecode (s.decIn.extractLsb' 8 8 ++ s.decIn.extractLsb' 0 8) :=
  congrArg manchesterDecode (BitVec.extractLsb'_append_extractLsb' (w := 8) (len := 8)).symm

/-- Settles O41: to each unit every step is nothing or the step of that unit used alone, so the runs to the end of two
environments that are the same to the unit end the same to it. -/
theorem unitsDoNotInfluenceEachOther : Obligations.UnitsDoNotInfluenceEachOther := by
  intro s t
  obtain ⟨s', hs, -⟩ := run_answers_next s.pending.length s
  obtain ⟨t', ht, -⟩ := run_answers_next t.pending.length t
  refine ⟨s', t', hs, ht, fun hin hread hacts => ?_, fun hin hread hacts => ?_⟩
  · have halone : s'.encAlone = t'.encAlone :=
      alone_eq_of_finish (fun u hu => by simp [State.encAlone, hu]) (fun _ _ => step_encAlone) hs ht
        (State.encAlone_eq_iff.2 ⟨hin, hread, hacts⟩)
    obtain ⟨hin', hread', -⟩ := State.encAlone_eq_iff.1 halone
    exact ⟨hin', congrArg manchesterEncode hin', hread'⟩
  · have halone : s'.decAlone = t'.decAlone :=
      alone_eq_of_finish (fun u hu => by simp [State.decAlone, hu]) (fun _ _ => step_decAlone) hs ht
        (State.decAlone_eq_iff.2 ⟨hin, hread, hacts⟩)
    obtain ⟨hin', hread', -⟩ := State.decAlone_eq_iff.1 halone
    exact ⟨hin', congrArg manchesterDecode hin', hread'⟩

/-- Settles O44: each call is one step that reads its own result in any state, so a list of them reads their results in
order, by induction on the list. -/
theorem callsGiveTheirOwnResultsInOrder : Obligations.CallsGiveTheirOwnResultsInOrder := by
  intro calls s rest
  have hcall : ∀ i u later, True → u.pending = .call i :: later →
      ∃ t, step u = .next t ∧ True ∧ t.pending = later ∧ t.readings = resultOf i :: u.readings := by
    intro i u later _ hp
    simpa using step_call_reads_resultOf hp
  obtain ⟨t, hrun, -, hpend, hread⟩ :=
    run_acts_read (s := { s with pending := calls.map .call ++ rest }) hcall calls trivial rfl
  exact ⟨t, hrun, hpend, hread⟩

/-- Settles O35: the changed word is one new byte and one old one, and each output bit comes from one of the two. -/
theorem halfUpdatedInputDecodesAsItStands : Obligations.HalfUpdatedInputDecodesAsItStands := by
  intro s b rest
  refine ⟨⟨_, rfl, rfl, rfl, rfl, fun k hk => ?_, fun k hk => ?_⟩,
    ⟨_, rfl, rfl, rfl, rfl, fun k hk => ?_, fun k hk hk7 => ?_⟩⟩
  · rw [State.driveDecHigh_decOut, manchesterDecode_append_getLsbD, if_pos hk]
  · rw [State.driveDecHigh_decOut, s.decOut_eq_decode_bytes, manchesterDecode_append_getLsbD,
      manchesterDecode_append_getLsbD, if_neg (by omega), if_neg (by omega)]
  · rw [State.driveDecLow_decOut, s.decOut_eq_decode_bytes, manchesterDecode_append_getLsbD,
      manchesterDecode_append_getLsbD, if_pos hk, if_pos hk]
  · rw [State.driveDecLow_decOut, manchesterDecode_append_getLsbD, if_neg (by omega), decide_eq_true hk7,
      Bool.true_and]

/-- Settles O36: a read keeps both inputs, so every repetition reads the same word. -/
theorem readingAnOutputMayBeRepeated : Obligations.ReadingAnOutputMayBeRepeated := by
  intro k s rest
  have henc : ∀ u : State, u.encIn = s.encIn → u.decIn = s.decIn →
      perform .sampleEnc u = .next { u with readings := .symbol s.encOut :: u.readings } := by
    intro u hu _
    rw [State.encOut, ← hu]; rfl
  have hdec : ∀ u : State, u.encIn = s.encIn → u.decIn = s.decIn →
      perform .sampleDec u = .next { u with readings := .payload s.decOut :: u.readings } := by
    intro u _ hu
    rw [State.decOut, ← hu]; rfl
  exact ⟨run_replicate_read henc k rest, run_replicate_read hdec k rest⟩

end Sys2Proof.Machine

/-! ## Encodings: port words and operations, the pairs of a symbol, the boundary (30_encoding.md) -/

namespace Sys2Proof

/-- A port word is the word of the operation it stands for (R33, R35). -/
@[simp] theorem encode_decodePortWord (w : PortWord) : encode (decodePortWord w) = w := by
  cases w with
  | encIn v => simp only [decodePortWord, encode, BitVec.ofInt_natCast, BitVec.ofNat_toNat, BitVec.setWidth_eq]
  | decIn v => simp only [decodePortWord, encode, BitVec.ofInt_natCast, BitVec.ofNat_toNat, BitVec.setWidth_eq]

/-- The operation of a port word has an operand that fits the port (R26, R30). -/
theorem decodePortWord_wellFormed (w : PortWord) : (decodePortWord w).WellFormed := by
  cases w with
  | encIn v =>
    have hv := v.isLt
    simp [decodePortWord, Instr.WellFormed, Instr.wf]; omega
  | decIn v =>
    have hv := v.isLt
    simp [decodePortWord, Instr.WellFormed, Instr.wf]; omega

/-- An operand that fits the port is the value of its own word: the reduction loses nothing (R32). -/
theorem decodePortWord_encode {i : Instr} (h : i.WellFormed) : decodePortWord (encode i) = i := by
  cases i with
  | encode n =>
    have hn : 0 ≤ n ∧ n < 256 := by simpa [Instr.WellFormed, Instr.wf] using h
    simp only [encode, decodePortWord, BitVec.toNat_ofInt]
    congr 1; omega
  | decode n =>
    have hn : 0 ≤ n ∧ n < 65536 := by simpa [Instr.WellFormed, Instr.wf] using h
    simp only [encode, decodePortWord, BitVec.toNat_ofInt]
    congr 1; omega

end Sys2Proof

namespace Sys2Proof.Machine

/-- The even bit of a pair (R6). -/
theorem pairOf_even (w : Symbol) (j : Nat) : (pairOf w j).getLsbD 0 = w.getLsbD (2 * j) := by
  rw [pairOf_getLsbD]; rfl

/-- The odd bit of a pair (R6). -/
theorem pairOf_odd (w : Symbol) (j : Nat) : (pairOf w j).getLsbD 1 = w.getLsbD (2 * j + 1) := by
  rw [pairOf_getLsbD]; rfl

/-- A pair is known by its odd bit and its even bit (R6). -/
theorem pairOf_eq_iff {w : Symbol} {j : Nat} {p : Pair} :
    pairOf w j = p ↔ w.getLsbD (2 * j + 1) = p.getLsbD 1 ∧ w.getLsbD (2 * j) = p.getLsbD 0 := by
  constructor
  · rintro rfl
    exact ⟨(pairOf_odd w j).symm, (pairOf_even w j).symm⟩
  · rintro ⟨hodd, heven⟩
    apply BitVec.eq_of_getLsbD_eq
    intro i hi
    interval_cases i
    · exact (pairOf_even w j).trans heven
    · exact (pairOf_odd w j).trans hodd

/-- A pair as a base-4 digit of the symbol. -/
theorem pairOf_toNat (w : Symbol) (j : Nat) : (pairOf w j).toNat = w.toNat / 4 ^ j % 4 := by
  rw [pairOf, BitVec.extractLsb'_toNat, Nat.shiftRight_eq_div_pow, Nat.pow_mul]

/-- Eight equal pairs make equal symbols. -/
theorem eq_of_pairOf_eq {w u : Symbol} (h : ∀ j < 8, pairOf w j = pairOf u j) : w = u := by
  apply BitVec.eq_of_getLsbD_eq
  intro i hi
  obtain ⟨hodd, heven⟩ := pairOf_eq_iff.1 (h (i / 2) (by omega))
  rw [pairOf_odd] at hodd
  rw [pairOf_even] at heven
  rcases Nat.mod_two_eq_zero_or_one i with hi2 | hi2
  · rwa [show 2 * (i / 2) = i by omega] at heven
  · rwa [show 2 * (i / 2) + 1 = i by omega] at hodd

/-- A pair of an XOR is the XOR of the pairs. -/
theorem pairOf_xor (w u : Symbol) (j : Nat) : pairOf (w ^^^ u) j = pairOf w j ^^^ pairOf u j :=
  BitVec.extractLsb'_xor

/-- Every pair of the clock mask is `10` (R28). -/
theorem pairOf_clockMask {j : Nat} (h : j < 8) : pairOf Config.clockMask j = 0b10#2 := by
  rw [pairOf_eq_iff, clockMask_getLsbD, clockMask_getLsbD]
  simp; omega

/-- Before the mask a payload bit is the pair `11` or `00` (R27). -/
theorem pairOf_spread (v : PayloadIn) {j : Nat} (h : j < 7) :
    pairOf (spread v) j = if v.getLsbD (6 - j) then 0b11#2 else 0b00#2 := by
  rw [pairOf_eq_iff, spread_getLsbD, spread_getLsbD, show (2 * j + 1) / 2 = j by omega, show 2 * j / 2 = j by omega]
  cases v.getLsbD (6 - j)
  · simp
  · simp; omega

/-- The accumulator never reaches pair 7 (R43). -/
theorem pairOf_spread_seven (v : PayloadIn) : pairOf (spread v) 7 = 0b00#2 := by
  rw [pairOf_eq_iff, spread_getLsbD, spread_getLsbD]
  exact ⟨rfl, rfl⟩

/-- After the mask a payload bit is the pair `01` or `10` (R27, R29). -/
theorem pairOf_manchesterEncode (v : PayloadIn) {j : Nat} (h : j < 7) :
    pairOf (manchesterEncode v) j = if v.getLsbD (6 - j) then 0b01#2 else 0b10#2 := by
  rw [manchesterEncode, pairOf_xor, pairOf_spread v h, pairOf_clockMask (by omega)]
  cases v.getLsbD (6 - j) <;> rfl

/-- Pair 7 of every result is `10` (R29). -/
theorem pairOf_manchesterEncode_seven (v : PayloadIn) : pairOf (manchesterEncode v) 7 = 0b10#2 := by
  rw [manchesterEncode, pairOf_xor, pairOf_spread_seven, pairOf_clockMask (by omega)]
  rfl

/-- The two halves of well-formedness (R34). -/
theorem wellFormedSymbol_iff {w : Symbol} :
    wellFormedSymbol w = true ↔ pairOf w 7 = 0b10#2 ∧ ∀ j < 7, pairOf w j = 0b10#2 ∨ pairOf w j = 0b01#2 := by
  simp [wellFormedSymbol, Config.usedPairs]

/-- Every encoding is a well-formed symbol (R34, R46). -/
@[simp] theorem wellFormedSymbol_manchesterEncode (v : PayloadIn) : wellFormedSymbol (manchesterEncode v) = true := by
  refine wellFormedSymbol_iff.2 ⟨pairOf_manchesterEncode_seven v, fun j hj => ?_⟩
  rw [pairOf_manchesterEncode v hj]
  cases v.getLsbD (6 - j) <;> simp

/-- A well-formed symbol lies in the range of R34: each of its base-4 digits is 1 or 2, and the top one is 2. -/
theorem wellFormedSymbol_range {w : Symbol} (h : wellFormedSymbol w = true) : 0x9555 ≤ w.toNat ∧ w.toNat ≤ 0xAAAA := by
  obtain ⟨htop, hlow⟩ := wellFormedSymbol_iff.1 h
  have hseven : w.toNat / 4 ^ 7 % 4 = 2 := by rw [← pairOf_toNat, htop]; rfl
  have hdigit : ∀ j < 7, w.toNat / 4 ^ j % 4 = 1 ∨ w.toNat / 4 ^ j % 4 = 2 := by
    intro j hj
    rw [← pairOf_toNat]
    rcases hlow j hj with hp | hp <;> simp [hp]
  have hw := w.isLt
  have h0 := hdigit 0 (by omega)
  have h1 := hdigit 1 (by omega)
  have h2 := hdigit 2 (by omega)
  have h3 := hdigit 3 (by omega)
  have h4 := hdigit 4 (by omega)
  have h5 := hdigit 5 (by omega)
  have h6 := hdigit 6 (by omega)
  omega

/-- Encoding sees bits 6:0 of its input only (R42). -/
theorem manchesterEncode_congr {v u : PayloadIn} (h : ∀ k < 7, v.getLsbD k = u.getLsbD k) :
    manchesterEncode v = manchesterEncode u := by
  apply BitVec.eq_of_getLsbD_eq
  intro i _
  rw [manchesterEncode_getLsbD, manchesterEncode_getLsbD, h (6 - i / 2) (by omega)]

/-- Decoding sees the even bits of pairs 0 to 6 only (R50). -/
theorem manchesterDecode_congr {w u : Symbol} (h : ∀ j < 7, w.getLsbD (2 * j) = u.getLsbD (2 * j)) :
    manchesterDecode w = manchesterDecode u := by
  apply BitVec.eq_of_getLsbD_eq
  intro k hk
  rw [manchesterDecode_getLsbD, manchesterDecode_getLsbD, show 12 - 2 * k = 2 * (6 - k) by omega,
    h (6 - k) (by omega)]

/-- Decoding an encoding gives the payload, bits 6:0 of the word encoded (R57). -/
@[simp] theorem manchesterDecode_manchesterEncode (v : PayloadIn) :
    manchesterDecode (manchesterEncode v) = v.setWidth 7 := by
  apply BitVec.eq_of_getLsbD_eq
  intro k hk
  rw [manchesterDecode_getLsbD, manchesterEncode_getLsbD, BitVec.getLsbD_setWidth,
    show 6 - (12 - 2 * k) / 2 = k by omega]
  have hlow : 12 - 2 * k < 14 := by omega
  have heven : ¬ (12 - 2 * k) % 2 = 1 := by omega
  simp [hk, hlow, heven]

/-- Encoding what a well-formed symbol decodes to gives it back (R59). -/
theorem manchesterEncode_manchesterDecode {w : Symbol} (h : wellFormedSymbol w = true) :
    manchesterEncode ((manchesterDecode w).setWidth 8) = w := by
  obtain ⟨htop, hlow⟩ := wellFormedSymbol_iff.1 h
  apply eq_of_pairOf_eq
  intro j hj
  rcases Nat.lt_succ_iff_lt_or_eq.1 hj with hj7 | rfl
  · have heven : ((manchesterDecode w).setWidth 8).getLsbD (6 - j) = (pairOf w j).getLsbD 0 := by
      rw [BitVec.getLsbD_setWidth, manchesterDecode_getLsbD, pairOf_even, show 12 - 2 * (6 - j) = 2 * j by omega]
      simp [show 6 - j < 8 by omega, show 6 - j < 7 by omega]
    rw [pairOf_manchesterEncode _ hj7, heven]
    rcases hlow j hj7 with hp | hp <;> simp [hp]
  · rw [pairOf_manchesterEncode_seven, htop]

/-- Reducing an integer to eight bits first changes no operand of `encode` (R32 a). -/
theorem encOperand_emod (n : Int) : encOperand (n % 256) = encOperand n := by
  apply BitVec.eq_of_toNat_eq
  simp [encOperand, BitVec.toNat_ofInt]

/-- Reducing an integer to sixteen bits first changes no operand of `decode` (R32 b). -/
theorem decOperand_emod (n : Int) : decOperand (n % 65536) = decOperand n := by
  apply BitVec.eq_of_toNat_eq
  simp [decOperand, BitVec.toNat_ofInt]

/-- Settles O2: an operand that fits its port survives the reduction, and a port word's own bits are read as that
word. -/
theorem decodeInvertsEncode : Obligations.DecodeInvertsEncode := by
  intro i hi
  have hback : decodePortWord (encode i) = i := decodePortWord_encode hi
  exact ⟨hback, by rw [decodeTableWord_self, hback]⟩

/-- Settles O46: a step adds at most one reading, and a symbol it adds is the encoding on `enc_out`. -/
theorem stepKeepsReadSymbolsWellFormed : Obligations.StepKeepsReadSymbolsWellFormed := by
  intro s t hs hstep
  rcases hp : s.pending with _ | ⟨e, rest⟩
  · cases (step_nil hp).symm.trans hstep
    exact hs
  · obtain ⟨t', hperform, -, hread⟩ := perform_cases e { s with pending := rest }
    cases ((step_cons hp).trans hperform).symm.trans hstep
    rcases hread with hsame | hsymbol | hpayload
    · rw [ReadingsGenuine, hsame]
      exact hs
    · rw [ReadingsGenuine, hsymbol]
      exact List.forall_mem_cons.2 ⟨wellFormedSymbol_manchesterEncode _, hs⟩
    · rw [ReadingsGenuine, hpayload]
      exact List.forall_mem_cons.2 ⟨rfl, hs⟩

/-- Settles O3: a port word is the word of its own operation, which fits the port and completes in every state. -/
theorem everyPortWordIsAnOperation : Obligations.EveryPortWordIsAnOperation := by
  intro w
  refine ⟨decodePortWord_wellFormed w, encode_decodePortWord w, fun s => ?_⟩
  obtain ⟨t, hexec, -⟩ := exec_reads_resultOf (decodePortWord w) s
  exact ⟨t, hexec⟩

/-- Settles O8: XORing the clock mask a second time leaves the accumulator, whose pairs are `11` and `00`. -/
theorem eachPairCarriesOnePayloadBit : Obligations.EachPairCarriesOnePayloadBit := by
  intro s
  have hmask : s.encOut ^^^ Config.clockMask = spread s.encIn := by
    rw [State.encOut, manchesterEncode, BitVec.xor_assoc, BitVec.xor_self, BitVec.xor_zero]
  refine ⟨pairOf_manchesterEncode_seven s.encIn, fun j hj => ⟨?_, pairOf_manchesterEncode s.encIn hj⟩⟩
  rw [hmask, pairOf_spread s.encIn hj]

/-- Settles O16: `decode` is the inverse of `encode` on payloads and on well-formed symbols, so the 128 payloads give
the well-formed symbols one to one. -/
theorem wellFormedSymbolsAreTheEncodings : Obligations.WellFormedSymbolsAreTheEncodings := by
  refine ⟨fun _ => wellFormedSymbol_iff, fun _ => wellFormedSymbol_range, by decide, by decide,
    fun a => manchesterEncode (BitVec.ofNat 8 a.val), fun a b hab => ?_, fun _ => rfl, fun w => ⟨fun hw => ?_, ?_⟩⟩
  · have hpayload := congrArg (fun w => (manchesterDecode w).toNat) hab
    simp only [manchesterDecode_manchesterEncode, BitVec.toNat_setWidth, BitVec.toNat_ofNat] at hpayload
    omega
  · refine ⟨⟨(manchesterDecode w).toNat, (manchesterDecode w).isLt⟩, ?_⟩
    simpa only [BitVec.ofNat_toNat] using manchesterEncode_manchesterDecode hw
  · rintro ⟨a, rfl⟩
    exact wellFormedSymbol_manchesterEncode _

/-- Settles O20: neither function sees a changed bit, and each output is a function of its own input. -/
theorem ignoredBitsChangeNoOutput : Obligations.IgnoredBitsChangeNoOutput := by
  intro s
  refine ⟨⟨manchesterEncode_congr fun k hk => ?_, rfl⟩, fun w hw => ⟨manchesterDecode_congr fun j hj => ?_, rfl⟩⟩
  · have hbit : (0x80#8).getLsbD k = false := by interval_cases k <;> rfl
    rw [State.driveEnc_encIn, BitVec.getLsbD_xor, hbit, Bool.xor_false]
  · have hbit : (0x1555#16).getLsbD (2 * j) = true := by interval_cases j <;> rfl
    simpa [hbit] using congrArg (fun u : Symbol => u.getLsbD (2 * j)) hw

/-- Settles O33: the reduced operands are equal, a symbol read lies in the range of the well-formed ones, and a payload
has seven bits. -/
theorem hostIntegersAreReducedAtTheBoundary : Obligations.HostIntegersAreReducedAtTheBoundary := by
  intro n s
  refine ⟨?_, ?_, ⟨_, _, exec_encode n s, rfl, ?_⟩, _, _, exec_decode n s, rfl, ?_⟩
  · rw [exec_encode, exec_encode, encOperand_emod]
  · rw [exec_decode, exec_decode, decOperand_emod]
  · have hrange := wellFormedSymbol_range (wellFormedSymbol_manchesterEncode (encOperand n))
    simp only [Reading.toHost, State.driveEnc_encOut]
    omega
  · have hlt := (manchesterDecode (decOperand n)).isLt
    simp only [Reading.toHost, State.driveDec_decOut]
    omega

/-- Settles O4: a step with an act pending is that act, and a use of a word is the operation the word decodes to. -/
theorem stepRunsTheDecodedOperation : Obligations.StepRunsTheDecodedOperation :=
  ⟨fun _ w _ hp => ⟨decodePortWord_wellFormed w, step_cons hp⟩, fun _ _ _ hp => step_cons hp, fun _ hp => step_nil hp⟩

/-- Settles O9: the mask has exactly the odd bits. -/
theorem clockMaskComplementsOddBits : Obligations.ClockMaskComplementsOddBits := by
  refine ⟨rfl, fun _ => pairOf_clockMask, fun _ => rfl, fun w i hi => ?_⟩
  rw [BitVec.getLsbD_xor, clockMask_getLsbD]
  by_cases hodd : i % 2 = 1
  · simp [hi, hodd]
  · simp [hodd]

/-- Settles O34: a call's one step puts its operand on the port and reads the output, as the drive and the read do. -/
theorem aUseIsADriveAndARead : Obligations.AUseIsADriveAndARead := by
  intro n s rest
  have hencode : step { s with pending := .call (.encode n) :: rest } =
      .next ({ s with pending := rest }.driveEnc (encOperand n)).sampleEnc := exec_encode n _
  have hdecode : step { s with pending := .call (.decode n) :: rest } =
      .next ({ s with pending := rest }.driveDec (decOperand n)).sampleDec := exec_decode n _
  exact ⟨run_succ_of_step 0 hencode, run_succ_of_step 0 hdecode⟩

end Sys2Proof.Machine

namespace Sys2Proof.Machine.Wrapper

open Sys2Proof.Config

/-- A byte is eight bits on the line. -/
@[simp] theorem length_byteOnLine (l : LineBitOrder) (b : Byte) : (byteOnLine l b).length = 8 := by
  cases l <;> rfl

/-- A byte taken off the line in the order it was put on is that byte (D10). -/
@[simp] theorem byteOffLine_byteOnLine (l : LineBitOrder) (b : Byte) : byteOffLine l (byteOnLine l b) = some b := by
  have hbits : BitVec.ofBoolListBE [b.getLsbD 7, b.getLsbD 6, b.getLsbD 5, b.getLsbD 4, b.getLsbD 3, b.getLsbD 2,
      b.getLsbD 1, b.getLsbD 0] = b := by
    apply BitVec.eq_of_getLsbD_eq
    intro i hi
    rw [BitVec.getLsbD_ofBoolListBE]
    have hi8 : i < 8 := hi
    interval_cases i <;> rfl
  cases l with
  | lsbFirst => exact congrArg some hbits
  | msbFirst => exact congrArg some hbits

/-- Only eight bits are a byte. -/
theorem length_of_byteOffLine {l : LineBitOrder} {bits : List Bool} {b : Byte} (h : byteOffLine l bits = some b) :
    bits.length = 8 := by
  unfold byteOffLine at h
  split at h
  · rfl
  · rfl
  · cases h

/-- The same byte order at both ends gives the word back (R64, R65). -/
@[simp] theorem reassemble_split (o : SymbolByteOrder) (w : Symbol) : reassemble o (split o w) = w := by
  have hbytes : w.extractLsb' 8 8 ++ w.extractLsb' 0 8 = w := BitVec.extractLsb'_append_extractLsb' (w := 8) (len := 8)
  cases o with
  | hiFirst => exact hbytes
  | loFirst => exact hbytes

/-- Only sixteen bits are a symbol: its two bytes are the first eight and the rest. -/
theorem length_of_symbolOffLine {o : SymbolByteOrder} {l : LineBitOrder} {bits : List Bool} {w : Symbol}
    (h : symbolOffLine o l bits = some w) : bits.length = 16 := by
  unfold symbolOffLine at h
  split at h
  next first second hfirst hsecond =>
    have htake := length_of_byteOffLine hfirst
    have hdrop := length_of_byteOffLine hsecond
    rw [List.length_take] at htake
    rw [List.length_drop] at hdrop
    omega
  next => cases h

/-- Settles O32: byte by byte the same orders at both ends are inverse, and a symbol off the line has sixteen bits. -/
theorem sameLineOrdersGiveTheSymbolBack : Obligations.SameLineOrdersGiveTheSymbolBack := by
  intro o l w
  refine ⟨by simp [symbolOnLine], ?_, fun bits hbits => ?_⟩
  · simp [symbolOnLine, symbolOffLine]
  · rcases h : symbolOffLine o l bits with _ | u
    · rfl
    · exact absurd (length_of_symbolOffLine h) hbits

end Sys2Proof.Machine.Wrapper

/-! ## Unit ENC: the loop's accumulator, the symbol's bits, its order and its shape (40_encode.md) -/

namespace Sys2Proof.Machine

/-- The loop's accumulator at width `w` after `i` iterations (R40, R45). -/
def accAt (w : Nat) (v : PayloadIn) : Nat → BitVec w
  | 0 => BitVec.ofNat w 0
  | i + 1 => (accAt w v i <<< 2) ||| (if v.getLsbD i then BitVec.ofNat w 3 else BitVec.ofNat w 0)

/-- The loop's accumulator on natural numbers after `i` iterations (R45). -/
def accNat (v : PayloadIn) : Nat → Nat
  | 0 => 0
  | i + 1 => accNat v i * 4 + (if v.getLsbD i then 3 else 0)

/-- The accumulator of any width is the one after seven iterations. -/
theorem spreadAt_eq_accAt (w : Nat) (v : PayloadIn) : spreadAt w v = accAt w v 7 := rfl

/-- The accumulator on natural numbers is the one after seven iterations. -/
theorem spreadNat_eq_accNat (v : PayloadIn) : spreadNat v = accNat v 7 := rfl

/-- The accumulator of `encode` is the one of width 16: the mask to 8 bits changes nothing (R40). -/
theorem spread_eq_accAt (v : PayloadIn) : spread v = accAt 16 v 7 := by
  have hm : v &&& 0xFF#8 = v := BitVec.and_allOnes
  unfold spread
  rw [hm]
  rfl

/-- Before iteration `i` the accumulator holds at most `2i` significant bits (R45). -/
theorem accNat_lt (v : PayloadIn) (i : Nat) : accNat v i < 4 ^ i := by
  induction i with
  | zero => exact Nat.one_pos
  | succ i ih =>
    rw [accNat, Nat.pow_succ]
    split <;> omega

/-- At a width that holds two bits an iteration no shift loses a 1 (R45). -/
theorem accAt_toNat {w i : Nat} (v : PayloadIn) (h : 2 * i ≤ w) : (accAt w v i).toNat = accNat v i := by
  induction i with
  | zero => simp [accAt, accNat]
  | succ i ih =>
    have hfits : accNat v (i + 1) < 2 ^ w :=
      calc accNat v (i + 1) < 4 ^ (i + 1) := accNat_lt v (i + 1)
        _ = 2 ^ (2 * (i + 1)) := (Nat.pow_mul 2 2 (i + 1)).symm
        _ ≤ 2 ^ w := Nat.pow_le_pow_right Nat.two_pos h
    have happend : accNat v i <<< 2 ||| (if v.getLsbD i then 3 else 0) = accNat v (i + 1) := by
      rw [← Nat.shiftLeft_add_eq_or_of_lt (by split <;> omega), Nat.shiftLeft_eq, accNat]
    have hpair : (if v.getLsbD i then BitVec.ofNat w 3 else BitVec.ofNat w 0) =
        BitVec.ofNat w (if v.getLsbD i then 3 else 0) := by split <;> rfl
    rw [accAt, hpair, BitVec.toNat_or, BitVec.toNat_shiftLeft, BitVec.toNat_ofNat, ih (by omega),
      ← Nat.or_mod_two_pow, happend, Nat.mod_eq_of_lt hfits]

/-- XORing the clock mask a second time leaves the accumulator (R28). -/
theorem State.encOut_xor_clockMask (s : State) : s.encOut ^^^ Config.clockMask = spread s.encIn := by
  rw [State.encOut, manchesterEncode, BitVec.xor_assoc, BitVec.xor_self, BitVec.xor_zero]

/-- Symbol bit `13 - 2k` is the complement of payload bit `k` (R41). -/
theorem manchesterEncode_odd (v : PayloadIn) {k : Nat} (h : k < 7) :
    (manchesterEncode v).getLsbD (13 - 2 * k) = !v.getLsbD k := by
  rw [manchesterEncode_getLsbD, show 6 - (13 - 2 * k) / 2 = k by omega, decide_eq_true (by omega),
    decide_eq_true (by omega), Bool.true_and, Bool.xor_true]

/-- Symbol bit `12 - 2k` is payload bit `k` (R41). -/
theorem manchesterEncode_even (v : PayloadIn) {k : Nat} (h : k < 7) :
    (manchesterEncode v).getLsbD (12 - 2 * k) = v.getLsbD k := by
  rw [manchesterEncode_getLsbD, show 6 - (12 - 2 * k) / 2 = k by omega, decide_eq_true (by omega),
    decide_eq_false (by omega), Bool.true_and, Bool.xor_false]

/-- Bit 15 of every symbol is 1 and bit 14 is 0 (R41, R43). -/
theorem manchesterEncode_top (v : PayloadIn) :
    (manchesterEncode v).getLsbD 15 = true ∧ (manchesterEncode v).getLsbD 14 = false :=
  pairOf_eq_iff.1 (pairOf_manchesterEncode_seven v)

/-- Words with the same payload agree on bits 6:0. -/
theorem getLsbD_eq_of_setWidth_eq {v u : PayloadIn} (h : v.setWidth 7 = u.setWidth 7) {k : Nat} (hk : k < 7) :
    v.getLsbD k = u.getLsbD k := by
  simpa [BitVec.getLsbD_setWidth, hk] using congrArg (fun p : Payload => p.getLsbD k) h

/-- Two words have the same symbol exactly when they have the same payload, bits 6:0 (R42, R46). -/
theorem manchesterEncode_eq_iff {v u : PayloadIn} :
    manchesterEncode v = manchesterEncode u ↔ v.setWidth 7 = u.setWidth 7 := by
  constructor
  · intro h
    rw [← manchesterDecode_manchesterEncode v, h, manchesterDecode_manchesterEncode]
  · intro h
    exact manchesterEncode_congr fun k hk => getLsbD_eq_of_setWidth_eq h hk

/-- Two words have the same payload exactly when they are equal or differ in bit 7 alone (R46). -/
theorem setWidth_seven_eq_iff {v u : PayloadIn} : v.setWidth 7 = u.setWidth 7 ↔ u = v ∨ u = v ^^^ 0x80#8 := by
  constructor
  · intro h
    by_cases htop : u.getLsbD 7 = v.getLsbD 7
    · left
      apply BitVec.eq_of_getLsbD_eq
      intro k hk
      rcases Nat.lt_succ_iff_lt_or_eq.1 hk with hk7 | rfl
      · exact getLsbD_eq_of_setWidth_eq h.symm hk7
      · exact htop
    · right
      apply BitVec.eq_of_getLsbD_eq
      intro k hk
      rw [BitVec.getLsbD_xor]
      rcases Nat.lt_succ_iff_lt_or_eq.1 hk with hk7 | rfl
      · have hbit : (0x80#8).getLsbD k = false := by interval_cases k <;> rfl
        rw [hbit, Bool.xor_false, getLsbD_eq_of_setWidth_eq h hk7]
      · exact (Bool.eq_not.2 htop).trans (Bool.xor_true _).symm
  · rintro (rfl | rfl)
    · rfl
    · rw [BitVec.setWidth_xor]
      exact BitVec.xor_zero.symm

/-- The payload of a host integer's operand is the integer's residue modulo 128 (R32 a, R42). -/
theorem encOperand_payload_emod (n : Int) : (encOperand (n % 128)).setWidth 7 = (encOperand n).setWidth 7 := by
  apply BitVec.eq_of_toNat_eq
  simp only [encOperand, BitVec.toNat_setWidth, BitVec.toNat_ofInt]
  omega

/-- Pair `j` of a symbol shows bit `j` of the bit-reversed payload (R29). -/
theorem manchesterEncode_getLsbD_reverse (p : Payload) (i : Nat) :
    (manchesterEncode (p.setWidth 8)).getLsbD i =
      ((decide (i < 14) && p.reverse.getLsbD (i / 2)) ^^ decide (i < 16 ∧ i % 2 = 1)) := by
  rw [manchesterEncode_getLsbD, BitVec.getLsbD_reverse, BitVec.getMsbD, BitVec.getLsbD_setWidth]
  by_cases h : i < 14
  · simp [h, show i / 2 < 7 by omega, show 6 - i / 2 < 8 by omega]
  · simp [h]

/-- Of two different natural numbers the greater has the 1 at the highest bit where they differ. -/
theorem exists_testBit_of_lt {n m : Nat} (h : n < m) :
    ∃ i, n.testBit i = false ∧ m.testBit i = true ∧ ∀ j, i < j → n.testBit j = m.testBit j := by
  obtain ⟨i, hi, habove⟩ := Nat.exists_most_significant_bit (Nat.xor_ne_zero_iff.2 h.ne)
  have hsame : ∀ j, i < j → n.testBit j = m.testBit j := fun j hj => by simpa using habove j hj
  rw [Nat.testBit_xor] at hi
  rcases hn : n.testBit i with _ | _
  · exact ⟨i, hn, by simpa [hn] using hi, hsame⟩
  · have hm : m.testBit i = false := by simpa [hn] using hi
    exact absurd (Nat.lt_of_testBit i hm hn fun j hj => (hsame j hj).symm) h.asymm

/-- `encode` is strictly decreasing in the bit-reversed payload: at the highest pair where the symbols differ, the
greater reversed payload has `01` and the smaller `10` (R46). -/
theorem manchesterEncode_lt_of_reverse_lt {p q : Payload} (h : p.reverse.toNat < q.reverse.toNat) :
    (manchesterEncode (q.setWidth 8)).toNat < (manchesterEncode (p.setWidth 8)).toNat := by
  obtain ⟨i, hp, hq, habove⟩ := exists_testBit_of_lt h
  simp only [BitVec.testBit_toNat] at hp hq habove
  have hi : i < 7 := BitVec.lt_of_getLsbD hq
  have hpair : (2 * i + 1) / 2 = i := by omega
  apply Nat.lt_of_testBit (2 * i + 1)
  · rw [BitVec.testBit_toNat, manchesterEncode_getLsbD_reverse, hpair, hq]
    simp; omega
  · rw [BitVec.testBit_toNat, manchesterEncode_getLsbD_reverse, hpair, hp]
    simp; omega
  · intro j hj
    rw [BitVec.testBit_toNat, BitVec.testBit_toNat, manchesterEncode_getLsbD_reverse,
      manchesterEncode_getLsbD_reverse, habove (j / 2) (by omega)]

/-- Each of the eight pairs of a well-formed symbol is `10` or `01` (R34, R47). -/
theorem wellFormedSymbol_pair {w : Symbol} (h : wellFormedSymbol w = true) {j : Nat} (hj : j < 8) :
    pairOf w j = 0b10#2 ∨ pairOf w j = 0b01#2 := by
  obtain ⟨htop, hlow⟩ := wellFormedSymbol_iff.1 h
  rcases Nat.lt_succ_iff_lt_or_eq.1 hj with hj7 | rfl
  · exact hlow j hj7
  · exact .inl htop

/-- Each pair of a well-formed symbol holds exactly one 1 (R47). -/
theorem wellFormedSymbol_odd_eq_not_even {w : Symbol} (h : wellFormedSymbol w = true) {j : Nat} (hj : j < 8) :
    w.getLsbD (2 * j + 1) = !w.getLsbD (2 * j) := by
  rw [← pairOf_odd, ← pairOf_even]
  rcases wellFormedSymbol_pair h hj with hp | hp <;> rw [hp] <;> rfl

/-- Where exactly one of each two neighbours has a property, half of them have it. -/
theorem length_filter_range_of_pairs {f : Nat → Bool} {m : Nat} (h : ∀ j < m, f (2 * j + 1) = !f (2 * j)) :
    ((List.range (2 * m)).filter f).length = m := by
  induction m with
  | zero => rfl
  | succ m ih =>
    have hlow := ih fun j hj => h j (by omega)
    have hlast := h m (by omega)
    rw [show 2 * (m + 1) = 2 * m + 1 + 1 by omega, List.range_succ, List.range_succ]
    cases hf : f (2 * m) <;> simp [hf, hlast, hlow]

/-- Exactly eight bits of a well-formed symbol are 1 (R47). -/
theorem wellFormedSymbol_ones {w : Symbol} (h : wellFormedSymbol w = true) :
    ((List.range 16).filter (fun i => w.getLsbD i)).length = 8 :=
  length_filter_range_of_pairs (m := 8) fun _ hj => wellFormedSymbol_odd_eq_not_even h hj

/-- The mask 0x5555 has every even bit 1 and every odd bit 0. -/
theorem evenMask_getLsbD {i : Nat} (h : i < 16) : (0x5555#16).getLsbD i = decide (i % 2 = 0) := by
  interval_cases i <;> rfl

/-- In a well-formed symbol each even bit differs from the bit above it (R47). -/
theorem wellFormedSymbol_xor_shift {w : Symbol} (h : wellFormedSymbol w = true) :
    (w ^^^ (w >>> 1)) &&& 0x5555#16 = 0x5555#16 := by
  apply BitVec.eq_of_getLsbD_eq
  intro i hi
  rw [BitVec.getLsbD_and, BitVec.getLsbD_xor, BitVec.getLsbD_ushiftRight, evenMask_getLsbD hi]
  by_cases heven : i % 2 = 0
  · obtain ⟨j, rfl⟩ : ∃ j, i = 2 * j := ⟨i / 2, by omega⟩
    rw [Nat.add_comm, wellFormedSymbol_odd_eq_not_even h (by omega)]
    simp
  · simp [heven]

/-- The accumulator commutes with XOR (R61). -/
theorem spread_xor (v u : PayloadIn) : spread (v ^^^ u) = spread v ^^^ spread u := by
  apply BitVec.eq_of_getLsbD_eq
  intro i _
  simp only [spread_getLsbD, BitVec.getLsbD_xor, Bool.and_xor_distrib_left]

/-- Changing the input by `m` changes the symbol by the accumulator of `m` (R61). -/
theorem manchesterEncode_xor_change (v m : PayloadIn) :
    manchesterEncode v ^^^ manchesterEncode (v ^^^ m) = spread m := by
  have hlast : manchesterEncode (v ^^^ m) = manchesterEncode v ^^^ spread m := by
    rw [manchesterEncode, manchesterEncode, spread_xor]
    ac_rfl
  rw [hlast, ← BitVec.xor_assoc, BitVec.xor_self, BitVec.zero_xor]

/-- The accumulator of payload bit `k` alone is the pair `11` in pair `6 - k` (R47). -/
theorem spread_singleBit : ∀ k < 7, spread (1#8 <<< k) = 0x3#16 <<< (12 - 2 * k) := by decide

/-- A symbol read is no payload read. -/
@[simp] theorem State.sampleEnc_payloadsRead (s : State) : s.sampleEnc.payloadsRead = s.payloadsRead := rfl

/-- A payload read is no symbol read. -/
@[simp] theorem State.sampleDec_symbolsRead (s : State) : s.sampleDec.symbolsRead = s.symbolsRead := rfl

/-- Driving `enc_in` reads no payload. -/
@[simp] theorem State.driveEnc_payloadsRead (s : State) (v : PayloadIn) :
    (s.driveEnc v).payloadsRead = s.payloadsRead := rfl

/-- Driving `dec_in` reads no symbol. -/
@[simp] theorem State.driveDec_symbolsRead (s : State) (w : Symbol) :
    (s.driveDec w).symbolsRead = s.symbolsRead := rfl

/-- `encode` of an operand whose symbol is `sym` completes and reads `sym`, in any state (R40, R44). -/
theorem exec_encode_reads {n : Int} {sym : Symbol} (h : manchesterEncode (encOperand n) = sym) (s : State) :
    ∃ t, exec (.encode n) s = .next t ∧ t.readings = .symbol sym :: s.readings := by
  subst h
  exact exec_reads_resultOf (.encode n) s

/-- `decode` of an operand whose payload is `p` completes and reads `p`, in any state (R48, R51). -/
theorem exec_decode_reads {n : Int} {p : Payload} (h : manchesterDecode (decOperand n) = p) (s : State) :
    ∃ t, exec (.decode n) s = .next t ∧ t.readings = .payload p :: s.readings := by
  subst h
  exact exec_reads_resultOf (.decode n) s

/-- Settles O14: `decode` is the left inverse of `encode` on payloads and its inverse on well-formed symbols, and the
order is decided at the highest pair where two symbols differ. -/
theorem encodeIsInjectiveAndDecreasingInReversedPayload :
    Obligations.EncodeIsInjectiveAndDecreasingInReversedPayload := by
  refine ⟨fun p q h => ?_, fun w => ⟨fun hw => ⟨_, manchesterEncode_manchesterDecode hw⟩, ?_⟩,
    fun v => wellFormedSymbol_range (wellFormedSymbol_manchesterEncode v), by decide, by decide,
    fun p q => manchesterEncode_lt_of_reverse_lt, by decide, by decide,
    fun v u => manchesterEncode_eq_iff.trans setWidth_seven_eq_iff⟩
  · simpa using manchesterEncode_eq_iff.1 h
  · rintro ⟨p, rfl⟩
    exact wellFormedSymbol_manchesterEncode _

/-- Settles O15: a symbol is well formed, and a change of the payload changes it by that change's accumulator. -/
theorem shapeOfEverySymbol : Obligations.ShapeOfEverySymbol := by
  intro s
  have hwf : wellFormedSymbol s.encOut = true := wellFormedSymbol_manchesterEncode s.encIn
  refine ⟨fun _ => wellFormedSymbol_pair hwf, wellFormedSymbol_ones hwf, wellFormedSymbol_xor_shift hwf, ?_,
    fun k hk => ?_⟩
  · exact (manchesterEncode_xor_change s.encIn 0x7F#8).trans (by decide)
  · exact (manchesterEncode_xor_change s.encIn (1#8 <<< k)).trans (spread_singleBit k hk)

/-- Settles O13: seven iterations fill fourteen bits, so at any width from 14 up the accumulator is the number. -/
theorem encodeAccumulatorWidthDoesNotMatter : Obligations.EncodeAccumulatorWidthDoesNotMatter := by
  intro s
  have hsymbol : s.encOut.toNat = spreadNat s.encIn ^^^ 0xAAAA := by
    rw [State.encOut, manchesterEncode, BitVec.toNat_xor, spread_eq_accAt, accAt_toNat _ (by omega),
      spreadNat_eq_accNat]
    rfl
  have hlt : spreadNat s.encIn < 2 ^ 14 := accNat_lt s.encIn 7
  refine ⟨hlt, hsymbol, fun w hw => ?_⟩
  have hacc : (spreadAt w s.encIn).toNat = spreadNat s.encIn := by
    rw [spreadAt_eq_accAt, accAt_toNat _ (by omega), spreadNat_eq_accNat]
  refine ⟨hacc, BitVec.eq_of_toNat_eq ?_⟩
  rw [hsymbol, BitVec.toNat_xor, BitVec.toNat_setWidth, hacc, Nat.mod_eq_of_lt (by omega)]
  rfl

/-- Settles O6: the loop's accumulator sequence is `accAt 16`. -/
theorem encodeRunsItsLoopAndTouchesNothingElse : Obligations.EncodeRunsItsLoopAndTouchesNothingElse := by
  intro n s
  have hloop : manchesterEncode (encOperand n) = accAt 16 (encOperand n) 7 ^^^ 0xAAAA#16 := by
    rw [manchesterEncode, spread_eq_accAt]
    rfl
  exact ⟨_, accAt 16 (encOperand n), exec_encode n s, rfl, rfl, fun _ _ => rfl, hloop, rfl, rfl, rfl, rfl⟩

/-- Settles O7: the symbol read, at the top pair and at each payload bit. -/
theorem encodeSymbolBitByBit : Obligations.EncodeSymbolBitByBit := by
  intro n s
  obtain ⟨t, hexec, hread⟩ := exec_encode_reads rfl s
  obtain ⟨htop, hnext⟩ := manchesterEncode_top (encOperand n)
  exact ⟨t, _, hexec, hread, htop, hnext, fun k hk => ⟨manchesterEncode_odd _ hk, manchesterEncode_even _ hk⟩⟩

/-- Settles O10: equal payloads have equal symbols. -/
theorem encodeDependsOnSevenBits : Obligations.EncodeDependsOnSevenBits := by
  refine ⟨fun s v => manchesterEncode_congr fun k hk => ?_, fun n s => ?_⟩
  · have hbit : (0x7F#8).getLsbD k = true := by interval_cases k <;> rfl
    rw [State.driveEnc_encIn, State.driveEnc_encIn, BitVec.getLsbD_and, hbit, Bool.and_true]
  · have hsymbol : manchesterEncode (encOperand (n % 128)) = manchesterEncode (encOperand n) :=
      manchesterEncode_eq_iff.2 (encOperand_payload_emod n)
    exact ⟨_, _, exec_encode n s, exec_encode (n % 128) s, by simp [hsymbol], hsymbol.symm⟩

/-- Settles O11: pair 7 of the accumulator is `00` and of the symbol `10`, the symbol's top base-4 digit. -/
theorem everyResultLiesBelowC000WithTopPairFixed : Obligations.EveryResultLiesBelowC000WithTopPairFixed := by
  intro s
  obtain ⟨hbit15, hbit14⟩ := manchesterEncode_top s.encIn
  have hdigit : s.encOut.toNat / 4 ^ 7 % 4 = 2 := by
    rw [← pairOf_toNat, State.encOut, pairOf_manchesterEncode_seven]
    rfl
  refine ⟨hbit15, hbit14, ?_, by omega, by omega⟩
  rw [State.encOut_xor_clockMask, pairOf_spread_seven]

/-- Settles O12: each operation reads its own function of its operand, and a payload has seven bits. -/
theorem everyOperationCompletes : Obligations.EveryOperationCompletes := by
  refine ⟨fun n s => ?_, fun n s => ?_⟩
  · obtain ⟨t, hexec, hread⟩ := exec_encode_reads rfl s
    exact ⟨t, _, hexec, hread⟩
  · obtain ⟨t, hexec, hread⟩ := exec_decode_reads rfl s
    exact ⟨t, _, hexec, hread, Nat.le_of_lt_succ (BitVec.isLt _)⟩

/-- Settles O45: the next state is the drive of one input and the read of its output, neither of which touches the
other unit. -/
theorem operationsLeaveTheRestUnchanged : Obligations.OperationsLeaveTheRestUnchanged := by
  refine ⟨fun n s t h => ?_, fun n s t h => ?_⟩
  · cases (exec_encode n s).symm.trans h
    simp
  · cases (exec_decode n s).symm.trans h
    simp

/-- Settles O49: the functions' values at the listed operands, read in every state. -/
theorem workedValuesOfBothOperations : Obligations.WorkedValuesOfBothOperations := by
  refine fun s => ⟨fun c hc => exec_encode_reads ?_ s, fun c hc => exec_decode_reads ?_ s⟩
  · revert c
    decide
  · revert c
    decide

end Sys2Proof.Machine

/-! ## Unit DEC: the loop's result, the bits decoding ignores, the preimages of a payload (41_decode.md) -/

namespace Sys2Proof.Machine

/-- The loop's result at width `w` after `i` iterations (R48, R54). -/
def resAt (w : Nat) (s : Symbol) : Nat → BitVec w
  | 0 => BitVec.ofNat w 0
  | i + 1 => (resAt w s i <<< 1) ||| (if s.getLsbD (2 * i) then BitVec.ofNat w 1 else BitVec.ofNat w 0)

/-- The loop's result on natural numbers after `i` iterations (R54). -/
def resNat (s : Symbol) : Nat → Nat
  | 0 => 0
  | i + 1 => resNat s i * 2 + (if s.getLsbD (2 * i) then 1 else 0)

/-- The result of any width is the one after seven iterations. -/
theorem gatherAt_eq_resAt (w : Nat) (s : Symbol) : gatherAt w s = resAt w s 7 := rfl

/-- The result on natural numbers is the one after seven iterations. -/
theorem gatherNat_eq_resNat (s : Symbol) : gatherNat s = resNat s 7 := rfl

/-- The result of `decode` is the one of width 7: the mask to 16 bits changes nothing (R48). -/
theorem manchesterDecode_eq_resAt (s : Symbol) : manchesterDecode s = resAt 7 s 7 := by
  have hm : s &&& 0xFFFF#16 = s := BitVec.and_allOnes
  unfold manchesterDecode
  rw [hm]
  rfl

/-- Before iteration `i` the result holds at most `i` significant bits (R54). -/
theorem resNat_lt (s : Symbol) (i : Nat) : resNat s i < 2 ^ i := by
  induction i with
  | zero => exact Nat.one_pos
  | succ i ih =>
    rw [resNat, Nat.pow_succ]
    split <;> omega

/-- At a width that holds one bit an iteration no shift loses a 1 (R54). -/
theorem resAt_toNat {w i : Nat} (s : Symbol) (h : i ≤ w) : (resAt w s i).toNat = resNat s i := by
  induction i with
  | zero => simp [resAt, resNat]
  | succ i ih =>
    have hfits : resNat s (i + 1) < 2 ^ w := (resNat_lt s (i + 1)).trans_le (Nat.pow_le_pow_right Nat.two_pos h)
    have happend : resNat s i <<< 1 ||| (if s.getLsbD (2 * i) then 1 else 0) = resNat s (i + 1) := by
      rw [← Nat.shiftLeft_add_eq_or_of_lt (by split <;> omega), Nat.shiftLeft_eq, resNat]
    have hbit : (if s.getLsbD (2 * i) then BitVec.ofNat w 1 else BitVec.ofNat w 0) =
        BitVec.ofNat w (if s.getLsbD (2 * i) then 1 else 0) := by split <;> rfl
    rw [resAt, hbit, BitVec.toNat_or, BitVec.toNat_shiftLeft, BitVec.toNat_ofNat, ih (by omega),
      ← Nat.or_mod_two_pow, happend, Nat.mod_eq_of_lt hfits]

/-- Payload bit `6 - j` is the even bit of pair `j` (R49, R52). -/
theorem manchesterDecode_pair (w : Symbol) {j : Nat} (h : j < 7) :
    (manchesterDecode w).getLsbD (6 - j) = (pairOf w j).getLsbD 0 := by
  rw [manchesterDecode_getLsbD, pairOf_even, show 12 - 2 * (6 - j) = 2 * j by omega, decide_eq_true (by omega),
    Bool.true_and]

/-- Inverting bits decoding does not see changes no payload (R50). -/
theorem manchesterDecode_xor_of_ignored (w : Symbol) {m : Symbol} (h : ∀ j < 7, m.getLsbD (2 * j) = false) :
    manchesterDecode (w ^^^ m) = manchesterDecode w :=
  manchesterDecode_congr fun j hj => by rw [BitVec.getLsbD_xor, h j hj, Bool.xor_false]

/-- The nine bits decoding ignores, gathered in one word: bits 0 to 6 are the odd bits of pairs 0 to 6, bits 7 and 8
are pair 7 (R50). -/
def ignoredBits (w : Symbol) : BitVec 9 :=
  BitVec.ofFnLE fun k => w.getLsbD (if k.val < 7 then 2 * k.val + 1 else k.val + 7)

/-- The symbol with payload `p` on the even bits of pairs 0 to 6 and `g` on the nine ignored bits (R49, R50). -/
def symbolWith (p : Payload) (g : BitVec 9) : Symbol :=
  BitVec.ofFnLE fun i =>
    if i.val < 14 then if i.val % 2 = 0 then p.getLsbD (6 - i.val / 2) else g.getLsbD (i.val / 2)
    else g.getLsbD (i.val - 7)

/-- Each of the nine ignored bits is a bit of the symbol. -/
theorem ignoredBits_getLsbD (w : Symbol) {k : Nat} (h : k < 9) :
    (ignoredBits w).getLsbD k = w.getLsbD (if k < 7 then 2 * k + 1 else k + 7) := by
  rw [ignoredBits, BitVec.getLsbD_ofFnLE, dif_pos h]

/-- Each bit of the symbol is a payload bit or an ignored bit. -/
theorem symbolWith_getLsbD (p : Payload) (g : BitVec 9) {i : Nat} (h : i < 16) :
    (symbolWith p g).getLsbD i =
      if i < 14 then if i % 2 = 0 then p.getLsbD (6 - i / 2) else g.getLsbD (i / 2) else g.getLsbD (i - 7) := by
  rw [symbolWith, BitVec.getLsbD_ofFnLE, dif_pos h]

/-- The even bit of each of pairs 0 to 6 is a payload bit. -/
theorem symbolWith_even (p : Payload) (g : BitVec 9) {j : Nat} (h : j < 7) :
    (symbolWith p g).getLsbD (2 * j) = p.getLsbD (6 - j) := by
  rw [symbolWith_getLsbD p g (by omega), if_pos (by omega), if_pos (by omega),
    Nat.mul_div_cancel_left j Nat.two_pos]

/-- The odd bit of each of pairs 0 to 6 is an ignored bit. -/
theorem symbolWith_odd (p : Payload) (g : BitVec 9) {j : Nat} (h : j < 7) :
    (symbolWith p g).getLsbD (2 * j + 1) = g.getLsbD j := by
  rw [symbolWith_getLsbD p g (by omega), if_pos (by omega), if_neg (by omega),
    show (2 * j + 1) / 2 = j by omega]

/-- Bits 14 and 15 are the last two ignored bits. -/
theorem symbolWith_top (p : Payload) (g : BitVec 9) {k : Nat} (h7 : 7 ≤ k) (h9 : k < 9) :
    (symbolWith p g).getLsbD (k + 7) = g.getLsbD k := by
  rw [symbolWith_getLsbD p g (by omega), if_neg (by omega), Nat.add_sub_cancel]

/-- A symbol built on a payload decodes to it, whatever its ignored bits (R50, R55). -/
@[simp] theorem manchesterDecode_symbolWith (p : Payload) (g : BitVec 9) : manchesterDecode (symbolWith p g) = p := by
  apply BitVec.eq_of_getLsbD_eq
  intro k hk
  rw [manchesterDecode_getLsbD, show 12 - 2 * k = 2 * (6 - k) by omega, symbolWith_even p g (by omega),
    decide_eq_true hk, Bool.true_and, show 6 - (6 - k) = k by omega]

/-- The nine ignored bits are free: a symbol holds whichever it was built with (R55). -/
@[simp] theorem ignoredBits_symbolWith (p : Payload) (g : BitVec 9) : ignoredBits (symbolWith p g) = g := by
  apply BitVec.eq_of_getLsbD_eq
  intro k hk
  rw [ignoredBits_getLsbD _ hk]
  by_cases h7 : k < 7
  · rw [if_pos h7, symbolWith_odd p g h7]
  · rw [if_neg h7, symbolWith_top p g (by omega) hk]

/-- A symbol is its payload and its nine ignored bits (R49, R50). -/
theorem symbolWith_decode_ignoredBits (w : Symbol) : symbolWith (manchesterDecode w) (ignoredBits w) = w := by
  apply BitVec.eq_of_getLsbD_eq
  intro i hi
  by_cases h14 : i < 14
  · have hpair : i / 2 < 7 := by omega
    rcases Nat.mod_two_eq_zero_or_one i with heven | hodd
    · rw [show i = 2 * (i / 2) by omega, symbolWith_even _ _ hpair, manchesterDecode_pair w hpair, pairOf_even]
    · rw [show i = 2 * (i / 2) + 1 by omega, symbolWith_odd _ _ hpair, ignoredBits_getLsbD w (by omega), if_pos hpair]
  · obtain ⟨k, rfl⟩ : ∃ k, i = k + 7 := ⟨i - 7, by omega⟩
    rw [symbolWith_top _ _ (by omega) (by omega), ignoredBits_getLsbD w (by omega), if_neg (by omega)]

/-- The preimages of a payload are the symbols built on it (R55). -/
theorem manchesterDecode_eq_iff {w : Symbol} {p : Payload} :
    manchesterDecode w = p ↔ ∃ g, symbolWith p g = w := by
  constructor
  · rintro rfl
    exact ⟨ignoredBits w, symbolWith_decode_ignoredBits w⟩
  · rintro ⟨g, rfl⟩
    exact manchesterDecode_symbolWith p g

/-- Different ignored bits make different symbols (R55). -/
theorem symbolWith_injective (p : Payload) : Function.Injective (symbolWith p) :=
  Function.LeftInverse.injective (ignoredBits_symbolWith p)

/-- Settles O24: a payload's preimages are indexed by their nine ignored bits, and the well-formed one is its
encoding. -/
theorem everyPayloadHas512Preimages : Obligations.EveryPayloadHas512Preimages := by
  intro p
  refine ⟨⟨fun a => symbolWith p (.ofFin a), fun a b hab => BitVec.ofFin.inj (symbolWith_injective p hab),
    fun w => manchesterDecode_eq_iff.trans ⟨?_, ?_⟩⟩, manchesterEncode (p.setWidth 8), ⟨?_, ?_⟩, ?_⟩
  · rintro ⟨g, rfl⟩
    exact ⟨g.toFin, rfl⟩
  · rintro ⟨a, rfl⟩
    exact ⟨.ofFin a, rfl⟩
  · simp
  · exact wellFormedSymbol_manchesterEncode _
  · rintro u ⟨rfl, hwf⟩
    exact (manchesterEncode_manchesterDecode hwf).symm

/-- Settles O17: the loop's result sequence is `resAt 7`. -/
theorem decodeRunsItsLoopAndTouchesNothingElse : Obligations.DecodeRunsItsLoopAndTouchesNothingElse := by
  intro n s
  exact ⟨_, resAt 7 (decOperand n), exec_decode n s, rfl, rfl, fun _ _ => rfl,
    manchesterDecode_eq_resAt (decOperand n), rfl, rfl, rfl, rfl⟩

/-- Settles O18: the payload read, at each of its seven bits. -/
theorem decodePayloadBitByBit : Obligations.DecodePayloadBitByBit := by
  intro n s
  obtain ⟨t, hexec, hread⟩ := exec_decode_reads rfl s
  refine ⟨t, _, hexec, hread, fun k hk => ?_⟩
  rw [manchesterDecode_getLsbD, decide_eq_true hk, Bool.true_and, decOperand]

/-- Settles O19: the mask 0x1555 keeps each even bit of pairs 0 to 6, and none of the nine bits is one of them. -/
theorem decodeReadsOnlySevenBits : Obligations.DecodeReadsOnlySevenBits := by
  refine fun s w => ⟨manchesterDecode_congr fun j hj => ?_, fun n hn => manchesterDecode_xor_of_ignored w ?_⟩
  · have hbit : (0x1555#16).getLsbD (2 * j) = true := by interval_cases j <;> rfl
    rw [State.driveDec_decIn, State.driveDec_decIn, BitVec.getLsbD_and, hbit, Bool.and_true]
  · revert n
    decide

/-- Settles O21: payload bit `6 - j` is the even bit of pair `j`, whatever the pair's odd bit. -/
theorem malformedPairsDecodeByTheirEvenBit : Obligations.MalformedPairsDecodeByTheirEvenBit := by
  intro n s
  refine ⟨_, manchesterDecode (decOperand n), exec_decode n s, rfl, fun j hj => ?_⟩
  rw [State.sampleDec_decIn, State.driveDec_decIn, manchesterDecode_pair _ hj]
  refine ⟨fun h => ?_, fun h => ?_, fun h => ?_, fun h => ?_⟩ <;> rw [h] <;> rfl

/-- Settles O22: the clock mask has no even bit. -/
theorem clockMaskDoesNotChangeDecoding : Obligations.ClockMaskDoesNotChangeDecoding :=
  fun _ w => manchesterDecode_xor_of_ignored w (m := Config.clockMask) fun j _ => by
    rw [clockMask_getLsbD, decide_eq_false (by omega)]

/-- Settles O23: seven iterations fill seven bits, so at any width from 7 up the result is the number. -/
theorem decodeResultWidthDoesNotMatter : Obligations.DecodeResultWidthDoesNotMatter := by
  refine fun s => ⟨?_, fun w hw => ?_⟩
  · rw [State.decOut, manchesterDecode_eq_resAt, resAt_toNat _ le_rfl, gatherNat_eq_resNat]
  · rw [gatherAt_eq_resAt, resAt_toNat _ hw, gatherNat_eq_resNat]

end Sys2Proof.Machine

/-! ## Both units together and the boundary: round trips, wrong bits, bitwise logic, the two bytes
(42_codec_laws_and_framing.md) -/

namespace Sys2Proof.Machine

/-- A symbol handed to `decode` as a host integer is the symbol on `dec_in`: the reduction loses nothing (R32 b). -/
@[simp] theorem decOperand_toNat (w : Symbol) : decOperand (w.toNat : Int) = w := by
  rw [decOperand, BitVec.ofInt_natCast, BitVec.ofNat_toNat, BitVec.setWidth_eq]

/-- The payload of a host integer's operand is the integer's residue modulo 128 (R58). -/
theorem encOperand_payload_toNat (n : Int) : (((encOperand n).setWidth 7).toNat : Int) = n % 128 := by
  rw [encOperand, BitVec.toNat_setWidth, BitVec.toNat_ofInt]
  omega

/-- The payload of an input word, as a word, is its bits 6:0 (R26). -/
theorem setWidth_payload_eq_and (v : PayloadIn) : (v.setWidth 7).setWidth 8 = v &&& 0x7F#8 := by
  apply BitVec.eq_of_toNat_eq
  have hmask : v.toNat &&& 127 = v.toNat % 2 ^ 7 := Nat.and_two_pow_sub_one_eq_mod v.toNat 7
  rw [BitVec.toNat_setWidth, BitVec.toNat_setWidth, BitVec.toNat_and, show (0x7F#8).toNat = 127 from rfl, hmask]
  omega

/-- Settles O25: `decode` undoes `encode` on the payload, and the payload of the operand is `n` modulo 128. -/
theorem roundTripKeepsTheLowSevenBits : Obligations.RoundTripKeepsTheLowSevenBits := by
  refine ⟨fun n s => ⟨_, _, (encOperand n).setWidth 7, exec_encode n s, exec_decode _ _, ?_,
    encOperand_payload_toNat n⟩, fun v s => ?_⟩
  · simp
  · rw [State.driveDec_decOut, State.driveEnc_encOut, manchesterDecode_manchesterEncode, setWidth_payload_eq_and]

/-- Words with the same payload agree on the even bits of pairs 0 to 6 (R49). -/
theorem getLsbD_even_eq_of_decode_eq {w u : Symbol} (h : manchesterDecode w = manchesterDecode u) {j : Nat}
    (hj : j < 7) : w.getLsbD (2 * j) = u.getLsbD (2 * j) := by
  rw [← pairOf_even, ← pairOf_even, ← manchesterDecode_pair w hj, ← manchesterDecode_pair u hj, h]

/-- A payload encoded and decoded is itself (R57). -/
theorem manchesterDecode_encode_payload (p : Payload) : manchesterDecode (manchesterEncode (p.setWidth 8)) = p := by
  simp

/-- Settles O26: `encode` gives a well-formed symbol and `decode` is its inverse on those, so a well-formed symbol with
the payload of `w` can only be the encoding of that payload. -/
theorem reencodingCanonicalises : Obligations.ReencodingCanonicalises := by
  intro w
  have hwf := wellFormedSymbol_manchesterEncode ((manchesterDecode w).setWidth 8)
  have hdecode := manchesterDecode_encode_payload (manchesterDecode w)
  obtain ⟨hbit15, hbit14⟩ := manchesterEncode_top ((manchesterDecode w).setWidth 8)
  refine ⟨_, rfl, hwf, hdecode, fun u hu hsame => ?_, ⟨fun h => h ▸ hwf, manchesterEncode_manchesterDecode⟩, hbit15,
    hbit14, fun j hj => ?_⟩
  · rw [← hsame, manchesterEncode_manchesterDecode hu]
  · have heven := getLsbD_even_eq_of_decode_eq hdecode hj
    exact ⟨heven, by rw [wellFormedSymbol_odd_eq_not_even hwf (by omega), heven]⟩

/-- `decode` commutes with XOR (R61). -/
theorem manchesterDecode_xor (w u : Symbol) :
    manchesterDecode (w ^^^ u) = manchesterDecode w ^^^ manchesterDecode u := by
  apply BitVec.eq_of_getLsbD_eq
  intro k hk
  simp only [manchesterDecode_getLsbD, BitVec.getLsbD_xor, decide_eq_true hk, Bool.true_and]

/-- `decode` commutes with AND (R61). -/
theorem manchesterDecode_and (w u : Symbol) :
    manchesterDecode (w &&& u) = manchesterDecode w &&& manchesterDecode u := by
  apply BitVec.eq_of_getLsbD_eq
  intro k hk
  simp only [manchesterDecode_getLsbD, BitVec.getLsbD_and, decide_eq_true hk, Bool.true_and]

/-- `decode` commutes with OR (R61). -/
theorem manchesterDecode_or (w u : Symbol) :
    manchesterDecode (w ||| u) = manchesterDecode w ||| manchesterDecode u := by
  apply BitVec.eq_of_getLsbD_eq
  intro k hk
  simp only [manchesterDecode_getLsbD, BitVec.getLsbD_or, decide_eq_true hk, Bool.true_and]

/-- `decode` commutes with complement, which is XOR with the word of ones (R61). -/
theorem manchesterDecode_not (w : Symbol) : manchesterDecode (~~~w) = ~~~(manchesterDecode w) := by
  have hones : manchesterDecode (BitVec.allOnes 16) = BitVec.allOnes 7 := by decide
  rw [← BitVec.xor_allOnes, manchesterDecode_xor, hones, BitVec.xor_allOnes]

/-- The accumulator is the symbol XOR the clock mask (R28, R61). -/
theorem spread_eq_encode_xor_clockMask (v : PayloadIn) : spread v = manchesterEncode v ^^^ Config.clockMask :=
  (State.reset.driveEnc v).encOut_xor_clockMask.symm

/-- The XOR of two symbols is the accumulator of the XOR of their inputs: the clock mask cancels (R61). -/
theorem manchesterEncode_xor_encode (v u : PayloadIn) :
    manchesterEncode v ^^^ manchesterEncode u = spread (v ^^^ u) := by
  have hu : v ^^^ (v ^^^ u) = u := by rw [← BitVec.xor_assoc, BitVec.xor_self, BitVec.zero_xor]
  simpa only [hu] using manchesterEncode_xor_change v (v ^^^ u)

/-- The symbol of a changed input is the symbol XOR the accumulator of the change (R61). -/
theorem manchesterEncode_xor (v m : PayloadIn) : manchesterEncode (v ^^^ m) = manchesterEncode v ^^^ spread m := by
  rw [← manchesterEncode_xor_change v m, ← BitVec.xor_assoc, BitVec.xor_self, BitVec.zero_xor]

/-- The accumulator of payload 0x7F is pairs 0 to 6 all ones (R61). -/
theorem spread_allOnes : spread 0x7F#8 = 0x3FFF#16 := by decide

/-- Settles O28: bit by bit for `decode` and the accumulator; in a symbol the clock mask comes in once. -/
theorem operationsCommuteWithBitwiseLogic : Obligations.OperationsCommuteWithBitwiseLogic := by
  refine ⟨fun w u => ⟨manchesterDecode_xor w u, manchesterDecode_and w u, manchesterDecode_or w u,
    manchesterDecode_not w⟩, spread_eq_encode_xor_clockMask, by decide, spread_allOnes,
    fun v u => ⟨spread_xor v u, manchesterEncode_xor_encode v u⟩, fun v => ?_⟩
  rw [manchesterEncode_xor, spread_allOnes]

/-- A word whose one 1 is an odd bit or in pair 7 decodes to zero (R50, R60). -/
theorem manchesterDecode_ignoredBit : ∀ n < 16, n % 2 = 1 ∨ n = 14 → manchesterDecode (1#16 <<< n) = 0#7 := by decide

/-- A word whose one 1 is bit `12 - 2k` decodes to payload bit `k` alone (R49, R60). -/
theorem manchesterDecode_payloadBit : ∀ k < 7, manchesterDecode (1#16 <<< (12 - 2 * k)) = 1#7 <<< k := by decide

/-- Settles O27: `decode` commutes with XOR, so the wrong bit changes the payload by its own decoding. -/
theorem oneWrongSymbolBit : Obligations.OneWrongSymbolBit := by
  intro p s n hn
  have hchange : manchesterDecode (manchesterEncode (p.setWidth 8) ^^^ (1#16 <<< n)) =
      p ^^^ manchesterDecode (1#16 <<< n) := by
    rw [manchesterDecode_xor, manchesterDecode_encode_payload]
  obtain ⟨t, hexec, hread⟩ := exec_decode_reads ((congrArg manchesterDecode (decOperand_toNat _)).trans hchange) s
  refine ⟨t, _, hexec, hread, fun hharmless => ?_, fun k hk => ?_⟩
  · rw [manchesterDecode_ignoredBit n hn hharmless, BitVec.xor_zero]
  · rw [show n = 12 - 2 * k by omega, manchesterDecode_payloadBit k (by omega)]

/-- The high byte of a symbol carries payload bits 2:0 only (R62). -/
theorem encode_highByte (v : PayloadIn) :
    (manchesterEncode v).extractLsb' 8 8 = (manchesterEncode ((v.extractLsb' 0 3).setWidth 8)).extractLsb' 8 8 := by
  apply BitVec.eq_of_getLsbD_eq
  intro i hi
  have hbit : 6 - (8 + i) / 2 < 3 := by omega
  have hbit8 : 6 - (8 + i) / 2 < 8 := by omega
  simp [manchesterEncode_getLsbD, hi, hbit, hbit8]

/-- The low byte of a symbol carries payload bits 6:3 only (R62). -/
theorem encode_lowByte (v : PayloadIn) :
    (manchesterEncode v).extractLsb' 0 8 =
      (manchesterEncode ((v.extractLsb' 3 4).setWidth 8 <<< 3)).extractLsb' 0 8 := by
  apply BitVec.eq_of_getLsbD_eq
  intro i hi
  have hback : 3 + (6 - i / 2 - 3) = 6 - i / 2 := by omega
  have hlow : ¬ 6 - i / 2 < 3 := by omega
  have hbit : 6 - i / 2 - 3 < 4 := by omega
  have hbit8 : 6 - i / 2 < 8 := by omega
  simp [manchesterEncode_getLsbD, hi, hback, hlow, hbit, hbit8]

/-- Settles O29: each byte carries three or four payload bits and nothing else, so its table has 8 or 16 entries to
compare. -/
theorem bytesOfAWellFormedSymbol : Obligations.BytesOfAWellFormedSymbol := by
  refine fun v => ⟨?_, ?_⟩
  · rw [encode_highByte]
    generalize v.extractLsb' 0 3 = q
    revert q
    decide
  · rw [encode_lowByte]
    generalize v.extractLsb' 3 4 = q
    revert q
    decide

/-- The high byte driven and then the low one is the whole word driven (R80). -/
theorem State.driveDecHigh_driveDecLow (s : State) (hi lo : Byte) :
    (s.driveDecHigh hi).driveDecLow lo = s.driveDec (hi ++ lo) := by
  have hkept : (hi ++ s.decIn.extractLsb' 0 8).extractLsb' 8 8 = hi := BitVec.extractLsb'_append_eq_left
  rw [driveDecLow, driveDecHigh_decIn, hkept]
  rfl

/-- The low byte driven and then the high one is the whole word driven (R80). -/
theorem State.driveDecLow_driveDecHigh (s : State) (hi lo : Byte) :
    (s.driveDecLow lo).driveDecHigh hi = s.driveDec (hi ++ lo) := by
  have hkept : (s.decIn.extractLsb' 8 8 ++ lo).extractLsb' 0 8 = lo := BitVec.extractLsb'_append_eq_right
  rw [driveDecHigh, driveDecLow_decIn, hkept]
  rfl

end Sys2Proof.Machine

namespace Sys2Proof.Machine.Wrapper

open Sys2Proof.Config

/-- Receiving two bytes takes two steps, which leave the reassembled word on `dec_in` and change nothing else (R65,
R80). -/
theorem run_receiveActs (o : SymbolByteOrder) (bytes : Byte × Byte) (s : State) (rest : List EnvEvent) (k : Nat) :
    Host.Core.run core (k + 2) { s with pending := receiveActs o bytes ++ rest } =
      Host.Core.run core k ({ s with pending := rest }.driveDec (reassemble o bytes)) := by
  obtain ⟨first, second⟩ := bytes
  cases o with
  | hiFirst =>
    calc
      _ = Host.Core.run core k (({ s with pending := rest }.driveDecHigh first).driveDecLow second) :=
        (run_succ_of_step (k + 1) rfl).trans (run_succ_of_step k rfl)
      _ = _ := by rw [State.driveDecHigh_driveDecLow]; rfl
  | loFirst =>
    calc
      _ = Host.Core.run core k (({ s with pending := rest }.driveDecLow first).driveDecHigh second) :=
        (run_succ_of_step (k + 1) rfl).trans (run_succ_of_step k rfl)
      _ = _ := by rw [State.driveDecLow_driveDecHigh]; rfl

/-- Settles O30: the received word is the symbol, since the same order at both ends is inverse, and the third step reads
its payload. -/
theorem sameByteOrderAtBothEndsGivesThePayload : Obligations.SameByteOrderAtBothEndsGivesThePayload := by
  intro o v s rest
  have hword : reassemble o (split o (manchesterEncode v)) = manchesterEncode v := reassemble_split o _
  refine ⟨({ s with pending := rest }.driveDec (manchesterEncode v)).sampleDec, ?_, rfl, hword.symm, ?_, rfl, rfl⟩
  · rw [run_receiveActs, hword]
    exact run_succ_of_step 0 rfl
  · simp

/-- Settles O31: the two orders name the same two bytes in opposite order, and the exchanged word is an input like any
other. -/
theorem differentByteOrdersExchangeTheBytes : Obligations.DifferentByteOrdersExchangeTheBytes := by
  refine ⟨fun w => ⟨rfl, rfl⟩, fun s => ?_⟩
  have hword : reassemble .loFirst (split .hiFirst (manchesterEncode 0x41#8)) = 0xA99A#16 := by decide
  have hpayload : manchesterDecode 0xA99A#16 = 0x14#7 := by decide
  rw [hword]
  refine ⟨_, exec_decode _ s, decOperand_toNat _, ?_⟩
  rw [State.sampleDec_readings, State.driveDec_decOut, decOperand_toNat, hpayload, State.driveDec_readings]

end Sys2Proof.Machine.Wrapper

/-! ## No exception and no refusal: every run completes, both units answer at one instant (60_exceptions.md) -/

namespace Sys2Proof.Machine

/-- Driving both inputs is one act that answers the state with the two words on their own ports (R69). -/
@[simp] theorem perform_driveBoth (v : PayloadIn) (w : Symbol) (s : State) :
    perform (.driveBoth v w) s = .next ((s.driveEnc v).driveDec w) := rfl

/-- Settles O40: `run_answers_next`, an induction on the length whose step is that every act answers a next state; the
state it ends in also witnesses that the run is safe. -/
theorem everyRunCompletes : Obligations.EveryRunCompletes := by
  intro k s
  obtain ⟨t, hrun, hpending⟩ := run_answers_next k s
  exact ⟨⟨t, hrun⟩, t, hrun, hpending⟩

/-- Settles O37: the step leaves each word on its own port, neither drive disturbing the other's, and in every state
each output is the wiring of its own input. -/
theorem bothUnitsAnswerAtOnce : Obligations.BothUnitsAnswerAtOnce := by
  intro v w s rest
  have hstep : step { s with pending := .driveBoth v w :: rest } =
      .next (({ s with pending := rest }.driveEnc v).driveDec w) := (step_cons rfl).trans (perform_driveBoth v w _)
  refine ⟨_, hstep, ?_, ?_, ?_, ?_⟩
  · rw [State.encOut_eq_wired, State.driveDec_encIn, State.driveEnc_encIn]
  · rw [State.decOut_eq_wired, State.driveDec_decIn]
  · rw [State.driveDec_readings, State.driveEnc_readings]
  · rw [State.driveDec_pending, State.driveEnc_pending]

end Sys2Proof.Machine

/-! ## Inputs left alone and inputs at zero: stable and shared ports, the model's reset (70_reset_and_hazards.md) -/

namespace Sys2Proof.Machine

/-- An act leaves every input it does not drive as it stands (R79). -/
theorem perform_keeps_undriven {e : EnvEvent} {s t : State} (h : perform e s = .next t) :
    (e.drivesEnc = false → t.encIn = s.encIn) ∧ (e.drivesDec = false → t.decIn = s.decIn) := by
  cases e with
  | use w => cases w with
    | encIn v => cases h; exact ⟨nofun, fun _ => rfl⟩
    | decIn w => cases h; exact ⟨fun _ => rfl, nofun⟩
  | call i => cases i with
    | encode n => cases h; exact ⟨nofun, fun _ => rfl⟩
    | decode n => cases h; exact ⟨fun _ => rfl, nofun⟩
  | driveEnc v => cases h; exact ⟨nofun, fun _ => rfl⟩
  | driveDec w => cases h; exact ⟨fun _ => rfl, nofun⟩
  | driveBoth v w => cases h; exact ⟨nofun, nofun⟩
  | driveDecHigh b => cases h; exact ⟨fun _ => rfl, nofun⟩
  | driveDecLow b => cases h; exact ⟨fun _ => rfl, nofun⟩
  | sampleEnc => cases h; exact ⟨fun _ => rfl, fun _ => rfl⟩
  | sampleDec => cases h; exact ⟨fun _ => rfl, fun _ => rfl⟩

section Stable

/-! A port's value `port`, which what is pending does not change, and acts `es` that leave it as it stands. -/

variable {α : Type} {port : State → α} {es : List EnvEvent}
  (hpending : ∀ (u : State) later, port { u with pending := later } = port u)
  (hkeep : ∀ e ∈ es, ∀ u t, perform e u = .next t → port t = port u)
include hpending hkeep

/-- A run through acts that leave a port alone comes to the acts after them with the port as it stood. -/
theorem run_keeps_port {s : State} {later : List EnvEvent} (hp : s.pending = es ++ later) (k : Nat) :
    ∃ t : State, Host.Core.run core (es.length + k) s = Host.Core.run core k t ∧ port t = port s ∧
      t.pending = later := by
  induction es generalizing s with
  | nil => exact ⟨s, by rw [List.length_nil, Nat.zero_add], rfl, hp⟩
  | cons e es ih =>
    obtain ⟨m, hperform, hmpend, -⟩ := perform_cases e { s with pending := es ++ later }
    obtain ⟨t, hrun, htport, htpend⟩ := ih (fun e' he' => hkeep e' (List.mem_cons_of_mem e he')) hmpend
    refine ⟨t, ?_, ?_, htpend⟩
    · rw [List.length_cons, Nat.succ_add]
      exact (run_succ_of_step _ ((step_cons hp).trans hperform)).trans hrun
    · rw [htport, hkeep e List.mem_cons_self _ _ hperform, hpending]

/-- A user who drives a port, and reads after acts that leave the port alone, reads what its value gives (R79). -/
theorem run_drive_keep_read {drive read : EnvEvent} {x : α} {r : Reading}
    (hdrive : ∀ u t, perform drive u = .next t → port t = x)
    (hread : ∀ u t, port u = x → perform read u = .next t → t.readings.head? = some r)
    (rest : List EnvEvent) (s : State) :
    ∃ t, Host.Core.run core (es.length + 2) { s with pending := drive :: (es ++ read :: rest) } = .next t ∧
      t.pending = rest ∧ t.readings.head? = some r := by
  obtain ⟨m, hm, hmpend, -⟩ := perform_cases drive { s with pending := es ++ read :: rest }
  obtain ⟨u, hu, huport, hupend⟩ := run_keeps_port hpending hkeep hmpend 1
  obtain ⟨t, ht, htpend, -⟩ := perform_cases read { u with pending := rest }
  have hx : port { u with pending := rest } = x := by rw [hpending, huport, hdrive _ _ hm]
  refine ⟨t, ?_, htpend, hread _ _ hx ht⟩
  calc
    Host.Core.run core (es.length + 2) { s with pending := drive :: (es ++ read :: rest) }
      = Host.Core.run core (es.length + 1) m := run_succ_of_step _ ((step_cons rfl).trans hm)
    _ = Host.Core.run core 1 u := hu
    _ = .next t := run_succ_of_step 0 ((step_cons hupend).trans ht)

end Stable

/-- Settles O42: by induction over the acts between, the input still stands as driven when the output is read. -/
theorem aStableInputIsReadUndisturbed : Obligations.AStableInputIsReadUndisturbed := by
  intro es rest s
  refine ⟨fun v hes => ?_, fun w hes => ?_⟩
  · refine run_drive_keep_read (port := State.encIn) (x := v) (fun _ _ => rfl)
      (fun e he _ _ h => (perform_keeps_undriven h).1 (hes e he)) ?_ ?_ rest s
    · rintro u t ⟨⟩
      exact u.driveEnc_encIn v
    · rintro u t rfl ⟨⟩
      rw [State.sampleEnc_readings, List.head?_cons, State.encOut_eq_wired]
  · refine run_drive_keep_read (port := State.decIn) (x := w) (fun _ _ => rfl)
      (fun e he _ _ h => (perform_keeps_undriven h).2 (hes e he)) ?_ ?_ rest s
    · rintro u t ⟨⟩
      exact u.driveDec_decIn w
    · rintro u t rfl ⟨⟩
      rw [State.sampleDec_readings, List.head?_cons, State.decOut_eq_wired]

/-- Settles O43: the second drive replaces the first one's word, so the read finds the second. -/
theorem aSharedPortReadsTheLastDrive : Obligations.ASharedPortReadsTheLastDrive := by
  intro s rest
  refine ⟨fun a b => ⟨(({ s with pending := rest }.driveEnc a).driveEnc b).sampleEnc, rfl, ?_⟩,
    fun a b => ⟨(({ s with pending := rest }.driveDec a).driveDec b).sampleDec, rfl, ?_⟩⟩
  · rw [State.sampleEnc_readings, State.encOut_eq_wired, State.driveEnc_encIn, State.driveEnc_readings,
      State.driveEnc_readings]
  · rw [State.sampleDec_readings, State.decOut_eq_wired, State.driveDec_decIn, State.driveDec_readings,
      State.driveDec_readings]

/-- Settles O47: at reset no word has been read. -/
theorem resetHasReadNothingMalformed : Obligations.ResetHasReadNothingMalformed :=
  List.forall_mem_nil _

/-- Settles O48: an output is its function of the input in every state, and reset is one with both inputs zero. -/
theorem outputsAtResetAreFunctionsOfTheInputs : Obligations.OutputsAtResetAreFunctionsOfTheInputs := by
  have henc : ∀ s : State, s.encIn = 0x00#8 → s.encOut = 0xAAAA#16 := by
    intro s hs
    rw [State.encOut_eq_wired, hs]
    decide
  have hdec : ∀ s : State, s.decIn = 0x0000#16 → s.decOut = 0x00#7 := by
    intro s hs
    rw [State.decOut_eq_wired, hs]
    decide
  exact ⟨henc, hdec, henc State.reset rfl, hdec State.reset rfl⟩

end Sys2Proof.Machine

/-! ## Table words: the length selects the row, and a placed word is the next act (30_encoding.md, model's choice) -/

namespace Sys2Proof.Machine

/-- A table word is refused exactly when its length is that of no input format, whatever its bits. -/
theorem decodeTableWord_eq_none {nbits w : Nat} :
    decodeTableWord nbits w = none ↔ nbits ≠ Config.encInSigW ∧ nbits ≠ Config.decInSigW := by
  unfold decodeTableWord decodeBits portWordOfBits
  split_ifs with henc hdec
  · simp [Except.map, henc]
  · simp [Except.map, hdec]
  · simp [Except.map, henc, hdec]

/-- Placing the bits of a port word makes a use of that word the next act and changes nothing else. -/
theorem withFetchWord_of_portWord {nbits w : Nat} {p : PortWord} (h : portWordOfBits nbits w = .ok p) (s : State) :
    s.withFetchWord nbits w = { s with pending := .use p :: s.pending } := by
  unfold State.withFetchWord placeWord
  rw [h]

/-- Settles O1: the four words are the bits of port words, so each is its own word's operation, and 12 is the length of
no input format. -/
theorem writtenWordsDecodeToTheirOperations : Obligations.WrittenWordsDecodeToTheirOperations :=
  ⟨decodeTableWord_self (.encIn 0b01000001#8), decodeTableWord_self (.encIn 0b11000001#8),
    decodeTableWord_self (.decIn 0b1001101010101001#16), decodeTableWord_self (.decIn 0b1110101010101010#16),
    decodeTableWord_eq_none.mpr (by decide)⟩

/-- Settles O5: a word that decodes is the bits of a port word, whose use is then the next act and runs its operation. -/
theorem placedTableWordIsTheNextOperation : Obligations.PlacedTableWordIsTheNextOperation := by
  intro nbits w i s hdecodes
  obtain ⟨p, hword, rfl⟩ := decodeTableWord_eq_some.mp hdecodes
  have hplaced := withFetchWord_of_portWord hword s
  calc
    step (s.withFetchWord nbits w) = step { s with pending := .use p :: s.pending } := by rw [hplaced]
    _ = perform (.use p) s := step_cons rfl
    _ = exec (decodePortWord p) s := rfl

end Sys2Proof.Machine
